-- ==== Sys2Proof/Word.lean ====
section
/-! DEFINITION. The widths of MLE-TX's values (spec 00_scope R6, 10_state R20 to R33) and its two line levels. -/

namespace Sys2Proof

/-- `HCW`, the 27 input bits sampled at one rising edge of `clk` (30_encoding R70). -/
abbrev HostWord := BitVec 27

/-- `opcode[23:0]`, width `OPW` (10_state R23). -/
abbrev Opcode := BitVec 24

/-- A 32-bit line frame, width `FW` (30_encoding R75). -/
abbrev FrameWord := BitVec 32

/-- The 4-bit checksum, width `CW` (40_frame_encoder R100). -/
abbrev Checksum := BitVec 4

/-- `phase[2:0]` (10_state R29). -/
abbrev PhaseCode := BitVec 3

/-- `idx[4:0]`, the index of the frame bit on the line (10_state R31). -/
abbrev BitIndex := BitVec 5

/-- One logical or physical level of the line: `true` is 1, `false` is 0 (00_scope R11, R15). -/
abbrev Level := Bool

/-- `MARK = 1` (00_scope R15). -/
abbrev MARK : Level := true

/-- `SPACE = 0` (00_scope R15). -/
abbrev SPACE : Level := false

/-- The output ports in one cycle (10_state R25, R26, R27), which together are what a run shows (00_scope R10). -/
structure Outputs where
  /-- the level of the output pin (R25) -/
  line : Level
  /-- the block takes a request at the next edge (R26) -/
  ready : Bool
  /-- `st_phase[2:0]` (R27) -/
  stPhase : PhaseCode
  /-- `st_idx[4:0]` (R27) -/
  stIdx : BitIndex
  /-- `st_frame[31:0]` (R27) -/
  stFrame : FrameWord
  deriving DecidableEq, Repr, Inhabited

end Sys2Proof
end

