-- ==== Sys2Proof/Machine/FrameEncoder.lean ====
section
/-! DEFINITION. The pure functions CSUM and FRAME (spec 40_frame_encoder R100, R102; windows: 30_encoding R76). -/

namespace Sys2Proof.Machine

/-- `FRAME_HDR`, the frame header (00_scope R8). -/
def FRAME_HDR : FrameWord := 0xFE000000#32

/-- Window `W0`: `zext_4(op[1:0])` (30_encoding R76). -/
def window0 (op : Opcode) : Checksum := (op.extractLsb' 0 2).zeroExtend 4

/-- The 4-bit window of `op` at offset `off`: `W1` to `W5` stand at 2, 6, 10, 14 and 18 (30_encoding R76). -/
def windowAt (op : Opcode) (off : Nat) : Checksum := op.extractLsb' off 4

/-- `CSUM(op)`, the XOR-fold of the six windows (40_frame_encoder R100). -/
def csum (op : Opcode) : Checksum :=
  window0 op ^^^ windowAt op 2 ^^^ windowAt op 6 ^^^ windowAt op 10 ^^^ windowAt op 14 ^^^ windowAt op 18

/-- `FRAME(op) = 0xFE000000 | (zext_32(op) << 6) | (zext_32(CSUM(op)) << 2)` (40_frame_encoder R102). -/
def frame (op : Opcode) : FrameWord :=
  FRAME_HDR ||| (op.zeroExtend 32 <<< 6) ||| ((csum op).zeroExtend 32 <<< 2)

end Sys2Proof.Machine
end

