-- ==== Sys2Proof/Config.lean ====
section
/-! DEFINITION. The implementation parameters (spec 00_scope R6) and the free values: what the spec leaves open. -/

namespace Sys2Proof

/-- The block's configuration: the parameters of 00_scope R6. `OPW`, `FW` and `CW` are fixed by the source and are the
widths of `Opcode`, `FrameWord` and `Checksum`. -/
structure Config where
  /-- `N_PRE`, the sync pulse in `clk` cycles -/
  nPre : Nat
  /-- `N_HALF`, a half-period in `clk` cycles -/
  nHalf : Nat
  /-- `N_GAP`, the inter-frame gap in `clk` cycles -/
  nGap : Nat
  /-- `CNT_W`, the width of the duration counter -/
  cntW : Nat
  /-- `T_TICK`, the period of `clk`; DESIGN CHOICE (log 9): counted in nanoseconds, and no step reads it -/
  tTick : Nat
  /-- `INVERT`, the line polarity strapped per deployment (93_implementation_defined I2). The host must present it on
  `cfg_invert` at every reset edge and may present anything (41_host_operations R126); `INV` latches what it presents
  (10_state R33), so no step reads the parameter itself (log 1) -/
  invert : Bool
  deriving DecidableEq, Repr

/-- The default of every parameter that has one (00_scope R6): 500, 250 and 3300 cycles, 12 bits, 1 µs. `INVERT` has none
("OPEN, no default"), so it is an argument. -/
def Config.default (invert : Bool) : Config :=
  { nPre := 500, nHalf := 250, nGap := 3300, cntW := 12, tTick := 1000, invert := invert }

/-- The `INVERT` of the one configuration that `State.reset` has: OPEN, with no default (00_scope R6, 92_eei_decisions D9),
so a free value (log 1). -/
opaque Config.openInvert : Bool

/-- The host-cycle word at edge `n` where the model was given none: the host's free choice (41_host_operations R126:
"Every run the host could choose must be admitted by a model"; log 2). -/
opaque Config.hostWord : Nat → HostWord

/-- The power-on value of `phase`, reserved codes included (10_state R40; log 3). -/
opaque Config.powerOnPhase : PhaseCode

/-- The power-on value of `cnt`, before it is cut to the counter's width (10_state R40; log 3). -/
opaque Config.powerOnCnt : Nat

/-- The power-on value of `idx` (10_state R40; log 3). -/
opaque Config.powerOnIdx : BitIndex

/-- The power-on value of `F` (10_state R40; log 3). -/
opaque Config.powerOnF : FrameWord

/-- The power-on value of `INV` (10_state R40; log 3). -/
opaque Config.powerOnINV : Bool

/-- The power-on levels of the input ports: the host may drive anything (41_host_operations R126; log 3). -/
opaque Config.powerOnPins : HostWord

/-- What the outputs show after `n` edges while no reset edge has happened: a free draw in every cycle (10_state R40,
70_reset_and_hazards R193; log 4). -/
opaque Config.outputsBeforeReset : Nat → Outputs

end Sys2Proof
end

