-- ==== Sys2Proof/Syntax.lean ====
section
/-! DEFINITION. The operations of spec/opcode_table.json, one constructor a row (30_encoding R84). -/

namespace Sys2Proof

/-- The three row formats of the opcode table (30_encoding R84). -/
inductive Format where
  /-- `HCW`: a host operation, selected by the host-cycle word (R71) -/
  | hcw
  /-- `PHASE`: a sequencer step, selected by the phase code (R80) -/
  | phase
  /-- `FUNC`: a pure function, with no encoding of its own -/
  | func
  deriving DecidableEq, Repr

/-- The operations. The fields of a host operation are the operand fields of its host-cycle word (30_encoding R70),
the ignored ones too, so that no bit of a word is lost (R72 says which are read). -/
inductive Instr where
  /-- `RESET` (41_host_operations R120): `inv` is `cfg_invert`; `q` and `o` are ignored. -/
  | reset (inv : Bool) (q : Bool) (o : Opcode)
  /-- `SEND` (R122): `o` is the opcode; `inv` is ignored. -/
  | send (inv : Bool) (o : Opcode)
  /-- `NOP` (R125): both fields are ignored. -/
  | nop (inv : Bool) (o : Opcode)
  /-- the `IDLE` step (42_line_sequencer R141); its operands `req` and `opcode` are input ports -/
  | idle
  /-- the `PRE` step (R142) -/
  | pre
  /-- the `H1` step (R143) -/
  | h1
  /-- the `H2` step (R144) -/
  | h2
  /-- the `GAP` step (R145) -/
  | gap
  /-- the reserved code `3'b101` (R146) -/
  | phaseRsvd101
  /-- the reserved code `3'b110` (R146) -/
  | phaseRsvd110
  /-- the reserved code `3'b111` (R146) -/
  | phaseRsvd111
  /-- the pure function `CSUM` (40_frame_encoder R100) -/
  | csum (op : Opcode)
  /-- the pure function `FRAME` (R102) -/
  | frame (op : Opcode)
  deriving DecidableEq, Repr

/-- The format of an operation's row in the opcode table (30_encoding R84). -/
def Instr.format (i : Instr) : Format :=
  match i with
  | .reset _ _ _ => .hcw
  | .send _ _ => .hcw
  | .nop _ _ => .hcw
  | .idle => .phase
  | .pre => .phase
  | .h1 => .phase
  | .h2 => .phase
  | .gap => .phase
  | .phaseRsvd101 => .phase
  | .phaseRsvd110 => .phase
  | .phaseRsvd111 => .phase
  | .csum _ => .func
  | .frame _ => .func

end Sys2Proof
end

