-- ==== Sys2Proof/WellFormed.lean ====
section
/-! DEFINITION. Which instructions stand as a word, and which configurations are legal. -/

namespace Sys2Proof

/-- An instruction is well formed when it stands as a word of its own: a host-cycle word or a phase code. The `FUNC` rows
"have no encoding of their own" (30_encoding R84). No operand is ever out of range: every host-cycle word is legal
(R71), every opcode is accepted (R73), and no opcode above 24 bits can be presented (10_state R23). -/
def Instr.wellFormed (i : Instr) : Bool :=
  match i.format with
  | .hcw => true
  | .phase => true
  | .func => false

/-- A phase of `n` cycles can be counted: it has a cycle, and the reload value `n - 1` fits in `w` bits (00_scope R7). -/
def durationLegal (n w : Nat) : Bool :=
  decide (1 ≤ n) && decide (n - 1 < 2 ^ w)

/-- A configuration is legal when each of its three durations is (00_scope R7). -/
def Config.legal (c : Config) : Bool :=
  durationLegal c.nPre c.cntW && durationLegal c.nHalf c.cntW && durationLegal c.nGap c.cntW

end Sys2Proof
end

