-- ==== Sys2Proof/Decode.lean ====
section
/-! DEFINITION. The host-cycle word and the phase code: decoder, then encoder (spec 30_encoding R70 to R72, R80, R83).
The block has no byte order and nothing is split into bytes (20_memory R53), so a word is decoded whole. -/

namespace Sys2Proof

/-! ### Phase codes (30_encoding R80) -/

/-- `IDLE`, `3'b000` -/
abbrev phaseIDLE : PhaseCode := 0b000#3
/-- `PRE`, `3'b001` -/
abbrev phasePRE : PhaseCode := 0b001#3
/-- `H1`, `3'b010` -/
abbrev phaseH1 : PhaseCode := 0b010#3
/-- `H2`, `3'b011` -/
abbrev phaseH2 : PhaseCode := 0b011#3
/-- `GAP`, `3'b100` -/
abbrev phaseGAP : PhaseCode := 0b100#3

/-! ### Fields of the host-cycle word (30_encoding R70) -/

/-- `HCW[26]`, `cfg_invert` -/
def hcwInvert (w : HostWord) : Bool := w.getLsbD 26

/-- `HCW[25]`, `rst` -/
def hcwRst (w : HostWord) : Bool := w.getLsbD 25

/-- `HCW[24]`, `req` -/
def hcwReq (w : HostWord) : Bool := w.getLsbD 24

/-- `HCW[23:0]`, `opcode` -/
def hcwOpcode (w : HostWord) : Opcode := w.extractLsb' 0 24

/-! ### Decoding -/

/-- A row of the opcode table matches a word when the word's masked bits are the row's (30_encoding R71). -/
def rowMatches (w mask value : HostWord) : Bool := w &&& mask == value

/-- The host operation of a host-cycle word (30_encoding R71). The three rows are tried by their masks; the last needs no
test, since the rows cover every word. -/
def decodeHostWord (w : HostWord) : Instr :=
  if rowMatches w 0x2000000#27 0x2000000#27 then .reset (hcwInvert w) (hcwReq w) (hcwOpcode w)
  else if rowMatches w 0x3000000#27 0x1000000#27 then .send (hcwInvert w) (hcwOpcode w)
  else .nop (hcwInvert w) (hcwOpcode w)

/-- The sequencer step of a phase code (30_encoding R80). -/
def decodePhase (c : PhaseCode) : Instr :=
  if c = phaseIDLE then .idle
  else if c = phasePRE then .pre
  else if c = phaseH1 then .h1
  else if c = phaseH2 then .h2
  else if c = phaseGAP then .gap
  else if c = 0b101#3 then .phaseRsvd101
  else if c = 0b110#3 then .phaseRsvd110
  else .phaseRsvd111

/-- Why a number is no instruction's word. -/
inductive DecodeError where
  /-- it has a bit above bit 26: `HCW` has 27 bits (30_encoding R70) -/
  | notAHostWord
  /-- it has a bit above bit 2: a phase code has 3 bits (30_encoding R80) -/
  | notAPhaseCode
  /-- it has no bits: a `FUNC` row has no encoding (30_encoding R84) -/
  | noEncoding
  deriving DecidableEq, Repr

/-- The row format of a word of `nbits` bits, in whole bytes: a phase code has 3 bits and a host-cycle word 27
(DESIGN CHOICE, log 8: the two are told apart by their length). -/
def formatOfBits (nbits : Nat) : Format :=
  if nbits = 0 then .func else if nbits ≤ 8 then .phase else .hcw

/-- The decoder on any number: the instruction, or the reason there is none. -/
def decode (f : Format) (w : Nat) : Except DecodeError Instr :=
  match f with
  | .hcw => if w < 2 ^ 27 then .ok (decodeHostWord (BitVec.ofNat 27 w)) else .error .notAHostWord
  | .phase => if w < 2 ^ 3 then .ok (decodePhase (BitVec.ofNat 3 w)) else .error .notAPhaseCode
  | .func => .error .noEncoding

/-- The decoder's answer for an opcode-table row's word, numbered as the table numbers it. -/
def decodeTableWord (nbits w : Nat) : Option Instr :=
  match decode (formatOfBits nbits) w with
  | .ok i => some i
  | .error _ => none

/-! ### Encoding -/

/-- The host-cycle word with the given fields (30_encoding R70). -/
def hostWord (inv rst req : Bool) (o : Opcode) : HostWord :=
  BitVec.ofBool inv ++ BitVec.ofBool rst ++ BitVec.ofBool req ++ o

/-- A word that selects an operation: a host-cycle word or a phase code. -/
inductive Encoded where
  /-- a host-cycle word (30_encoding R70) -/
  | hostWord (w : HostWord)
  /-- a phase code (30_encoding R80) -/
  | phaseCode (c : PhaseCode)
  deriving DecidableEq, Repr

/-- The format of a word. -/
def Encoded.format (e : Encoded) : Format :=
  match e with
  | .hostWord _ => .hcw
  | .phaseCode _ => .phase

/-- The instruction that a word selects. -/
def decodeEncoded (e : Encoded) : Instr :=
  match e with
  | .hostWord w => decodeHostWord w
  | .phaseCode c => decodePhase c

/-- The word of an instruction, and none for a `FUNC` row (30_encoding R70, R71, R80, R84). -/
def encode (i : Instr) : Option Encoded :=
  match i with
  | .reset inv q o => some (.hostWord (hostWord inv true q o))
  | .send inv o => some (.hostWord (hostWord inv false true o))
  | .nop inv o => some (.hostWord (hostWord inv false false o))
  | .idle => some (.phaseCode 0b000#3)
  | .pre => some (.phaseCode 0b001#3)
  | .h1 => some (.phaseCode 0b010#3)
  | .h2 => some (.phaseCode 0b011#3)
  | .gap => some (.phaseCode 0b100#3)
  | .phaseRsvd101 => some (.phaseCode 0b101#3)
  | .phaseRsvd110 => some (.phaseCode 0b110#3)
  | .phaseRsvd111 => some (.phaseCode 0b111#3)
  | .csum _ => none
  | .frame _ => none

/-! ### The notation of test programs (30_encoding R83) -/

/-- `RESET inv`: `(inv << 26) | 0x2000000` -/
def asmRESET (inv : Bool) : HostWord := hostWord inv true false 0#24

/-- `SEND op`: `0x1000000 | op` -/
def asmSEND (op : Opcode) : HostWord := hostWord false false true op

/-- `NOP`: `0x0000000` -/
def asmNOP : HostWord := hostWord false false false 0#24

/-- `XMIT op`: `SEND op` and then `NOP * (N_PRE + 64*N_HALF + N_GAP)` -/
def asmXMIT (c : Config) (op : Opcode) : List HostWord :=
  asmSEND op :: List.replicate (c.nPre + 64 * c.nHalf + c.nGap) asmNOP

end Sys2Proof
end

