-- ==== Sys2Proof/Machine/State.lean ====
section
/-! DEFINITION. The machine's state, its reset, and why a step can stop (spec 10_state R29 to R40, 60_exceptions R172). -/

namespace Sys2Proof.Machine

/-- The model has no fault: "From a state reachable from reset, every host-cycle word has exactly one next state, and the
model has no fault outcome" (60_exceptions R172 (c); R170 and R176: no exception and no trap). Nobody raises one, and
having none is safe or unsafe nowhere: the type says only that no step ends in a fault. -/
inductive Fault where
  deriving DecidableEq, Repr

/-- Why the model gives a state or an instruction no meaning. -/
inductive Refusal where
  /-- Raised by an arm of `exec` for an instruction that has no meaning yet. Safe: nothing is claimed. No arm raises it. -/
  | notModelled (mnemonic : String)
  /-- Raised by every clocked operation when the configuration breaks 00_scope R7: "A model refuses a configuration that
  breaks this. It does not give such a configuration a meaning" (also 60_exceptions R172 (a), 70_reset_and_hazards R200).
  Safe: no claim is made of such a block. -/
  | illegalConfiguration
  deriving DecidableEq, Repr

/-- What has happened so far, as far as the rules speak of it (60_exceptions R172 (b), 10_state R41 (f)). The model's own:
no step reads it (log 5). -/
inductive History where
  /-- no reset edge has happened -/
  | beforeReset
  /-- a reset edge has happened, and no acceptance since the last one -/
  | sinceReset
  /-- a reset edge has happened, and an acceptance since the last one -/
  | sinceAcceptance
  deriving DecidableEq, Repr

/-- The answer of a pure function evaluated on its own (opcode table, format `FUNC`). The model's own (log 6). -/
inductive FuncOut where
  /-- none has been evaluated -/
  | none
  /-- `CSUM` answered `v` -/
  | csum (v : Checksum)
  /-- `FRAME` answered `v` -/
  | frame (v : FrameWord)
  deriving DecidableEq, Repr

/-- The machine. `phase`, `cnt`, `idx`, `F` and `INV` are all the registers it has (10_state R34); `pins` are its input
ports; the other fields are the model's own. -/
structure State where
  /-- the parameters (00_scope R6, 10_state R37), which no step changes (log 7) -/
  cfg : Config
  /-- `phase[2:0]`, the sequencer state (R29) -/
  phase : PhaseCode
  /-- `cnt[CNT_W-1:0]`, the duration counter (R30); a count, kept below `2^CNT_W` (log 10) -/
  cnt : Nat
  /-- `idx[4:0]`, the frame bit being sent (R31) -/
  idx : BitIndex
  /-- `F[31:0]`, the frame register (R32) -/
  F : FrameWord
  /-- `INV`, the polarity register (R33) -/
  INV : Bool
  /-- the input ports as sampled at the last edge, as a host-cycle word (R21 to R24, 30_encoding R70; log 11) -/
  pins : HostWord
  /-- the model's own: the host-cycle words of the coming edges, the next one first (log 2) -/
  host : List HostWord
  /-- the model's own: how many edges have passed, which the free values are drawn by (log 2) -/
  edges : Nat
  /-- the model's own: what has happened so far (log 5) -/
  history : History
  /-- the model's own: the last answer of a pure function evaluated on its own (log 6) -/
  funcOut : FuncOut
  deriving DecidableEq, Repr

/-- The machine right after a reset edge (10_state R39), at the default parameters, with nothing scheduled by the host.
`INV` is the strap sampled at that edge, where the host presented the deployment's `INVERT` (41_host_operations R126),
which the spec leaves OPEN (log 1). -/
def State.reset : State :=
  { cfg := Config.default Config.openInvert
    phase := phaseIDLE
    cnt := 0
    idx := 0#5
    F := 0x00000000#32
    INV := Config.openInvert
    pins := asmRESET Config.openInvert
    host := []
    edges := 0
    history := .sinceReset
    funcOut := .none }

/-- The machine at power-up, before its first reset edge: every register is a free draw of its width (10_state R40,
93_implementation_defined I3; log 3), and so are the input ports (41_host_operations R126: "anything"). -/
def State.powerOn (c : Config) : State :=
  { cfg := c
    phase := Config.powerOnPhase
    cnt := Config.powerOnCnt % 2 ^ c.cntW
    idx := Config.powerOnIdx
    F := Config.powerOnF
    INV := Config.powerOnINV
    pins := Config.powerOnPins
    host := []
    edges := 0
    history := .beforeReset
    funcOut := .none }

end Sys2Proof.Machine
end

