-- ==== Sys2Proof/Machine/Operands.lean ====
section
/-! DEFINITION. What an operation reads: the input ports, the frame bit being sent, and the host-cycle word of a coming
edge (spec 10_state R21 to R24, R31; 30_encoding R70, R72). -/

namespace Sys2Proof.Machine

/-- The input port `rst` (10_state R21). -/
def State.rst (s : State) : Bool := hcwRst s.pins

/-- The input port `req` (10_state R22). -/
def State.req (s : State) : Bool := hcwReq s.pins

/-- The input port `opcode[23:0]` (10_state R23). -/
def State.opcode (s : State) : Opcode := hcwOpcode s.pins

/-- The input port `cfg_invert` (10_state R24). -/
def State.cfgInvert (s : State) : Bool := hcwInvert s.pins

/-- `F[idx]`, the frame bit being sent (10_state R31, R32). -/
def State.frameBit (s : State) : Bool := s.F.getLsbD s.idx.toNat

/-- The host-cycle word of the edge that comes after `j` more: what the host has scheduled, and else its free choice
(41_host_operations R126; log 2). -/
def State.wordAt (s : State) (j : Nat) : HostWord :=
  match s.host[j]? with
  | some w => w
  | none => Config.hostWord (s.edges + j)

/-- The host-cycle word of the coming edge. -/
def State.nextWord (s : State) : HostWord := s.wordAt 0

end Sys2Proof.Machine
end

