-- ==== Sys2Proof/Machine/Ops.lean ====
section
/-! DEFINITION. The named operations on the state. The block has no memory (spec 20_memory R50), takes no exception and
returns from none (60_exceptions R170, R176, R177), so there is no operation for either. In a step every read sees the
value before the edge and all writes land together (00_scope R13): each operation reads its argument state only. -/

namespace Sys2Proof.Machine

/-! ### Register writes -/

/-- `phase <- v` -/
def State.setPhase (s : State) (v : PhaseCode) : State := { s with phase := v }

/-- `cnt <- v`. No value written is ever too wide for the counter: a legal configuration's reload values fit, and a
decrement starts from a counter that is not 0 (00_scope R7, R12; log 10). -/
def State.setCnt (s : State) (v : Nat) : State := { s with cnt := v }

/-- `idx <- v` -/
def State.setIdx (s : State) (v : BitIndex) : State := { s with idx := v }

/-- `F <- v` -/
def State.setF (s : State) (v : FrameWord) : State := { s with F := v }

/-- `INV <- v` -/
def State.setINV (s : State) (v : Bool) : State := { s with INV := v }

/-- Notes what has happened, in the model's own field (log 5). -/
def State.setHistory (s : State) (h : History) : State := { s with history := h }

/-- Gives the answer of a pure function, in the model's own field (log 6). -/
def State.setFuncOut (s : State) (v : FuncOut) : State := { s with funcOut := v }

/-! ### The inputs -/

/-- One rising edge samples the input ports (30_encoding R70): the coming host-cycle word stands on the pins, and the
schedule moves on by one edge. -/
def State.sample (s : State) : State :=
  { s with pins := s.nextWord, host := s.host.tail, edges := s.edges + 1 }

/-- Schedules `w` for the coming edge, in place of what was scheduled for it. -/
def State.placeHostWord (s : State) (w : HostWord) : State := { s with host := w :: s.host.tail }

/-- Places the program `ws`: the host-cycle words of the coming edges, one an edge (30_encoding R83, 95_test_vectors §3). -/
def State.loadProgram (s : State) (ws : List HostWord) : State := { s with host := ws }

/-- Places the word of an opcode-table row where the coming step takes it from: a host-cycle word on the coming edge; a
phase code in `phase`, with a coming edge that neither resets nor requests. -/
def State.placeTableWord (s : State) (nbits w : Nat) : State :=
  match formatOfBits nbits with
  | .phase => (s.setPhase (BitVec.ofNat 3 w)).placeHostWord asmNOP
  | .hcw => s.placeHostWord (BitVec.ofNat 27 w)
  | .func => s

/-! ### What a clocked operation may do -/

/-- One clocked step to `t`. A configuration that breaks 00_scope R7 is refused, with no step (60_exceptions R172 (a)). -/
def clocked (s t : State) : Host.Outcome State Fault Refusal :=
  if s.cfg.legal then .next t else .refused .illegalConfiguration

/-! ### Reset and acceptance -/

/-- The reset values (10_state R39, 41_host_operations R120). -/
def resetTo (inv : Bool) (s : State) : State :=
  (((((s.setPhase phaseIDLE).setCnt 0).setIdx 0#5).setF 0x00000000#32).setINV inv).setHistory .sinceReset

/-- The history after an acceptance: before the first reset edge, still that (log 5). -/
def History.accepted (h : History) : History :=
  match h with
  | .beforeReset => .beforeReset
  | .sinceReset => .sinceAcceptance
  | .sinceAcceptance => .sinceAcceptance

/-- Acceptance of a request (41_host_operations R122). -/
def accept (op : Opcode) (s : State) : State :=
  ((((s.setF (frame op)).setPhase phasePRE).setCnt (s.cfg.nPre - 1)).setIdx 31#5).setHistory s.history.accepted

/-! ### The steps of the phases (42_line_sequencer R141 to R146), for `rst == 0` -/

/-- `cnt <- cnt - 1` (42_line_sequencer R142 to R145), taken only where `cnt` is not 0. -/
def countDown (s : State) : State := s.setCnt (s.cnt - 1)

/-- Entry to a phase of `n` cycles: `phase <- p; cnt <- n - 1`. -/
def enterPhase (p : PhaseCode) (n : Nat) (s : State) : State := (s.setPhase p).setCnt (n - 1)

/-- The `IDLE` step (R141). -/
def idleStep (req : Bool) (op : Opcode) (s : State) : State :=
  if req then accept op s else s

/-- The `PRE` step (R142). -/
def preStep (s : State) : State :=
  if s.cnt ≠ 0 then countDown s else enterPhase phaseH1 s.cfg.nHalf s

/-- The `H1` step (R143). -/
def h1Step (s : State) : State :=
  if s.cnt ≠ 0 then countDown s else enterPhase phaseH2 s.cfg.nHalf s

/-- The `H2` step (R144). -/
def h2Step (s : State) : State :=
  if s.cnt ≠ 0 then countDown s
  else if s.idx ≠ 0#5 then enterPhase phaseH1 s.cfg.nHalf (s.setIdx (s.idx - 1#5))
  else enterPhase phaseGAP s.cfg.nGap s

/-- The `GAP` step (R145). -/
def gapStep (s : State) : State :=
  if s.cnt ≠ 0 then countDown s else s.setPhase phaseIDLE

/-- The step of a reserved phase code (R146). -/
def reservedStep (s : State) : State := (s.setPhase phaseIDLE).setCnt 0

/-- The step that `phase` selects, with the inputs an `IDLE` step reads (42_line_sequencer R140, the arms below `RESET`). -/
def sequencerStep (req : Bool) (op : Opcode) (s : State) : State :=
  if s.phase = phaseIDLE then idleStep req op s
  else if s.phase = phasePRE then preStep s
  else if s.phase = phaseH1 then h1Step s
  else if s.phase = phaseH2 then h2Step s
  else if s.phase = phaseGAP then gapStep s
  else reservedStep s

end Sys2Proof.Machine
end

