-- ==== Sys2Proof/Machine/FrameFunctions.lean ====
section
/-! DEFINITION. The meanings of the pure functions CSUM and FRAME evaluated on their own (spec 40_frame_encoder R100,
R102). They are combinational: no register is written and no clock edge passes, so they depend on no configuration. What
they answer stands in the model's own field `funcOut` (log 6). An accepted `SEND` applies them in `accept`. -/

namespace Sys2Proof.Machine

/-- `CSUM` (R100) -/
def execCsum (op : Opcode) (s : State) : Host.Outcome State Fault Refusal := .next (s.setFuncOut (.csum (csum op)))

/-- `FRAME` (R102) -/
def execFrame (op : Opcode) (s : State) : Host.Outcome State Fault Refusal := .next (s.setFuncOut (.frame (frame op)))

end Sys2Proof.Machine
end

