-- ==== Sys2Proof/Machine/HostOps.lean ====
section
/-! DEFINITION. The meanings of the host operations RESET, SEND and NOP (spec 41_host_operations). -/

namespace Sys2Proof.Machine

/-- `RESET` (R120): `q` and `o` are ignored, and every phase is left. -/
def execReset (inv : Bool) (_q : Bool) (_o : Opcode) (s : State) : Host.Outcome State Fault Refusal :=
  clocked s (resetTo inv s)

/-- `SEND` (R122): acceptance in `IDLE`, and in any other phase that phase's step, which does not read the opcode. -/
def execSend (_inv : Bool) (o : Opcode) (s : State) : Host.Outcome State Fault Refusal :=
  clocked s (if s.phase = phaseIDLE then accept o s else sequencerStep true o s)

/-- `NOP` (R125): the step of the phase, with no request. -/
def execNop (_inv : Bool) (o : Opcode) (s : State) : Host.Outcome State Fault Refusal :=
  clocked s (sequencerStep false o s)

end Sys2Proof.Machine
end

