-- ==== Sys2Proof/Machine/Sequencer.lean ====
section
/-! DEFINITION. The meanings of the sequencer steps, for an edge with `rst == 0` (spec 42_line_sequencer R141 to R146). A
step's rule reads `phase` only to select the step; the meaning is what the selected step does (log 12). -/

namespace Sys2Proof.Machine

/-- `IDLE` (R141): its operands are the input ports `req` and `opcode`. -/
def execIdle (s : State) : Host.Outcome State Fault Refusal := clocked s (idleStep s.req s.opcode s)

/-- `PRE` (R142) -/
def execPre (s : State) : Host.Outcome State Fault Refusal := clocked s (preStep s)

/-- `H1` (R143) -/
def execH1 (s : State) : Host.Outcome State Fault Refusal := clocked s (h1Step s)

/-- `H2` (R144) -/
def execH2 (s : State) : Host.Outcome State Fault Refusal := clocked s (h2Step s)

/-- `GAP` (R145) -/
def execGap (s : State) : Host.Outcome State Fault Refusal := clocked s (gapStep s)

/-- `PHASE_RSVD_101` (R146) -/
def execPhaseRsvd101 (s : State) : Host.Outcome State Fault Refusal := clocked s (reservedStep s)

/-- `PHASE_RSVD_110` (R146) -/
def execPhaseRsvd110 (s : State) : Host.Outcome State Fault Refusal := clocked s (reservedStep s)

/-- `PHASE_RSVD_111` (R146) -/
def execPhaseRsvd111 (s : State) : Host.Outcome State Fault Refusal := clocked s (reservedStep s)

end Sys2Proof.Machine
end

