-- ==== Sys2Proof/Machine/Dispatch.lean ====
section
/-! DEFINITION. The meaning of every instruction, one arm a constructor. -/

namespace Sys2Proof.Machine

def exec (i : Instr) (s : State) : Host.Outcome State Fault Refusal :=
  match i with
  | .reset inv q o => Sys2Proof.Machine.execReset inv q o s
  | .send inv o => Sys2Proof.Machine.execSend inv o s
  | .nop inv o => Sys2Proof.Machine.execNop inv o s
  | .idle => Sys2Proof.Machine.execIdle s
  | .pre => Sys2Proof.Machine.execPre s
  | .h1 => Sys2Proof.Machine.execH1 s
  | .h2 => Sys2Proof.Machine.execH2 s
  | .gap => Sys2Proof.Machine.execGap s
  | .phaseRsvd101 => Sys2Proof.Machine.execPhaseRsvd101 s
  | .phaseRsvd110 => Sys2Proof.Machine.execPhaseRsvd110 s
  | .phaseRsvd111 => Sys2Proof.Machine.execPhaseRsvd111 s
  | .csum op => Sys2Proof.Machine.execCsum op s
  | .frame op => Sys2Proof.Machine.execFrame op s

end Sys2Proof.Machine
end

