-- ==== Sys2Proof/Machine/Step.lean ====
section
/-! DEFINITION. One step: one rising edge of `clk` (spec 00_scope R9, 42_line_sequencer R140). -/

namespace Sys2Proof.Machine

/-- One rising edge: the input ports are sampled and the host operation of their word runs (30_encoding R71). A word with
`rst == 0` in turn runs the step that the phase code selects (42_line_sequencer R140). -/
def step (s : State) : Host.Outcome State Fault Refusal :=
  exec (decodeHostWord s.nextWord) s.sample

/-- `s` with the word of an opcode-table row stored where the coming step takes it from. -/
def State.withFetchWord (s : State) (nbits w : Nat) : State := s.placeTableWord nbits w

end Sys2Proof.Machine
end

