-- ==== Sys2Proof/Machine/Flags.lean ====
section
/-! DEFINITION. The one status flag, and the outputs, all combinational in the registers (spec 42_line_sequencer R147 to
R149; 10_state R25 to R27, R36). -/

namespace Sys2Proof.Machine

/-- `ready = (phase == IDLE)` (42_line_sequencer R149). -/
def State.ready (s : State) : Bool := s.phase == phaseIDLE

/-- `busy = ~ready` (10_state R36). -/
def State.busy (s : State) : Bool := !s.ready

/-- `lvl`, the logical level of the line (42_line_sequencer R147). -/
def State.lvl (s : State) : Level :=
  if s.phase = phasePRE then MARK
  else if s.phase = phaseH1 then s.frameBit
  else if s.phase = phaseH2 then !s.frameBit
  else SPACE

/-- The physical level of a logical level: `v ^ INV` (30_encoding R79). -/
def physicalLevel (inv : Bool) (v : Level) : Level := Bool.xor v inv

/-- `line = lvl ^ INV` (42_line_sequencer R148). -/
def State.line (s : State) : Level := physicalLevel s.INV s.lvl

/-- The output ports as functions of the registers (10_state R25 to R27). -/
def State.outputs (s : State) : Outputs :=
  { line := s.line, ready := s.ready, stPhase := s.phase, stIdx := s.idx, stFrame := s.F }

/-- What an observer sees in this cycle: the outputs, once a reset edge has happened (00_scope R10), and before that a
free draw in every cycle (10_state R40, 70_reset_and_hazards R193; log 4). -/
def State.observe (s : State) : Outputs :=
  match s.history with
  | .beforeReset => Config.outputsBeforeReset s.edges
  | .sinceReset => s.outputs
  | .sinceAcceptance => s.outputs

end Sys2Proof.Machine
end

