-- ==== Sys2Proof/Machine/Timing.lean ====
section
/-! DEFINITION. The cycle counts that follow from the parameters (spec 42_line_sequencer R150, 20_memory R54,
70_reset_and_hazards R202). No step reads them: each is what a run must show. -/

namespace Sys2Proof.Machine

/-- `B = N_PRE + 64*N_HALF + N_GAP`, the busy time of one frame (42_line_sequencer R150). -/
def busyCycles (c : Config) : Nat := c.nPre + 64 * c.nHalf + c.nGap

/-- `P = B + 1`, the frame period when the host holds `req` (42_line_sequencer R150). -/
def framePeriod (c : Config) : Nat := busyCycles c + 1

/-- How long `n` cycles last, in the unit of `T_TICK` (00_scope R6). -/
def cyclesTime (c : Config) (n : Nat) : Nat := n * c.tTick

/-- The half-period, counted from 0, that cycle `n` after an acceptance lies in, for a cycle after the sync pulse. -/
def halfPeriodAt (c : Config) (n : Nat) : Nat := (n - c.nPre - 1) / c.nHalf

/-- The logical level of the line in cycle `n` after the acceptance of a frame `f`, the first cycle being cycle 1: the
sync pulse, then each bit from bit 31 down in two half-periods, then SPACE (30_encoding R77, R78; 20_memory R52). -/
def frameLevel (c : Config) (f : FrameWord) (n : Nat) : Level :=
  if n ≤ c.nPre then MARK
  else if n ≤ c.nPre + 64 * c.nHalf then
    let h := halfPeriodAt c n
    let b := f.getLsbD (31 - h / 2)
    if h % 2 = 0 then b else !b
  else SPACE

/-- The cycles until `phase` is `IDLE` again, for a state that a reset edge has led to: 0 in `IDLE`, and else the rest of
the present phase (10_state R30: `cnt + 1` cycles) and all the phases still to come. -/
def cyclesToIdle (s : State) : Nat :=
  if s.phase = phasePRE then s.cnt + 1 + 64 * s.cfg.nHalf + s.cfg.nGap
  else if s.phase = phaseH1 then s.cnt + 1 + (2 * s.idx.toNat + 1) * s.cfg.nHalf + s.cfg.nGap
  else if s.phase = phaseH2 then s.cnt + 1 + 2 * s.idx.toNat * s.cfg.nHalf + s.cfg.nGap
  else if s.phase = phaseGAP then s.cnt + 1
  else 0

end Sys2Proof.Machine
end

