-- ==== Sys2Proof/Machine/Trace.lean ====
section
/-! DEFINITION. What a run shows: the outputs cycle by cycle, and the line as level and duration (spec 00_scope R10,
60_exceptions R182). -/

namespace Sys2Proof.Machine

/-- `k` edges. -/
def run (k : Nat) (s : State) : Host.Outcome State Fault Refusal :=
  match k with
  | 0 => .next s
  | k + 1 =>
    match step s with
    | .next t => run k t
    | .fault r => .fault r
    | .refused r => .refused r

/-- The observation of `n` cycles, from the present one on (00_scope R10). -/
def trace (n : Nat) (s : State) : List Outputs :=
  match n with
  | 0 => []
  | n + 1 =>
    s.observe ::
      match step s with
      | .next t => trace n t
      | .fault _ => []
      | .refused _ => []

/-- A sequence of levels as runs of equal levels, each with its length in cycles: the `(level, duration)` record of
60_exceptions R182. -/
def levelRuns (vs : List Level) : List (Level × Nat) :=
  match vs with
  | [] => []
  | v :: vs =>
    match levelRuns vs with
    | [] => [(v, 1)]
    | (u, n) :: rest => if u = v then (v, n + 1) :: rest else (v, 1) :: (u, n) :: rest

/-- The `(level, duration)` record of the line over `n` cycles. -/
def lineRecord (n : Nat) (s : State) : List (Level × Nat) :=
  levelRuns ((trace n s).map (fun o => o.line))

end Sys2Proof.Machine
end

