-- ==== Sys2Proof/Safety.lean ====
section
/-! DEFINITION. What holds of the machine once a reset edge has happened (spec 10_state R41), and which states that is. -/

namespace Sys2Proof.Machine

/-- "A reset edge has occurred" (60_exceptions R172 (b)), the premise of every claim about the block's behaviour; the claims
without it say themselves why. The history is the model's own record of it (log 5), and
`Obligations.ObservationStartsAtTheFirstResetEdge` says that it records just that. -/
abbrev resetOccurred (s : State) : Prop := s.history ≠ .beforeReset

/-- The coming edge is one that claims are made of: a reset edge has occurred (60_exceptions R172 (b)), or this edge is one
(10_state R39), or `phase` holds a reserved code, whose step R172 says is the block's behaviour (42_line_sequencer R146). What
is left, an edge without reset from a power-on draw in a legal phase, no claim speaks of. -/
abbrev edgeClaimed (s : State) : Prop := resetOccurred s ∨ hcwRst s.nextWord = true ∨ 5 ≤ s.phase.toNat

/-- `F == 0`, or `F == FRAME(v)` for some 24-bit `v` (10_state R41 (e)). -/
def frameRegisterOk (f : FrameWord) : Prop := f = 0#32 ∨ ∃ v : Opcode, f = frame v

/-- The invariants of 10_state R41, clause by clause. -/
structure ReachableInvariants (s : State) : Prop where
  /-- (a) `phase` is one of the five legal codes -/
  phaseLegal : s.phase = phaseIDLE ∨ s.phase = phasePRE ∨ s.phase = phaseH1 ∨ s.phase = phaseH2 ∨ s.phase = phaseGAP
  /-- (b) -/
  preOk : s.phase = phasePRE → s.idx = 31#5 ∧ s.cnt ≤ s.cfg.nPre - 1
  /-- (c) -/
  halfOk : s.phase = phaseH1 ∨ s.phase = phaseH2 → s.cnt ≤ s.cfg.nHalf - 1
  /-- (d) -/
  gapOk : s.phase = phaseGAP → s.idx = 0#5 ∧ s.cnt ≤ s.cfg.nGap - 1
  /-- (e), with what it says of the frame's fixed bits -/
  frameOk : frameRegisterOk s.F ∧ (s.F ≠ 0#32 → s.F.extractLsb' 25 7 = 0b1111111#7 ∧ s.F.extractLsb' 0 2 = 0b00#2)
  /-- (f) -/
  noFrameYet : s.phase = phaseIDLE → s.history = .sinceReset → s.F = 0#32

/-- What every step keeps: 10_state R41, and the facts it takes to keep it. That the configuration is legal is 00_scope R7;
the rest the model deduces from the rules' pseudocode (log 13). -/
structure SafeState (s : State) : Prop where
  /-- the configuration is legal (00_scope R7) -/
  legal : s.cfg.legal = true
  /-- a reset edge has happened -/
  resetSeen : resetOccurred s
  /-- 10_state R41 -/
  inv : ReachableInvariants s
  /-- the counter holds a value of its width (10_state R30) -/
  cntWidth : s.cnt < 2 ^ s.cfg.cntW
  /-- in `IDLE` the counter and the index are 0 -/
  idleOk : s.phase = phaseIDLE → s.cnt = 0 ∧ s.idx = 0#5
  /-- a frame in progress is the frame of some opcode -/
  busyFrame : s.phase ≠ phaseIDLE → ∃ v : Opcode, s.F = frame v
  /-- with no acceptance since the last reset, no frame is in progress -/
  idleSinceReset : s.history = .sinceReset → s.phase = phaseIDLE

/-- The states that steps lead to from a reset edge, whatever the state before that edge (10_state R40, R41). -/
inductive Reachable : State → Prop where
  /-- the state after a reset edge -/
  | afterReset (s t : State) (hrst : hcwRst s.nextWord = true) (hstep : step s = .next t) : Reachable t
  /-- the state after any further edge -/
  | afterStep (s t : State) (hs : Reachable s) (hstep : step s = .next t) : Reachable t

/-- No reset edge is among the coming `n` edges. -/
def noResetFor (n : Nat) (s : State) : Prop := ∀ j, j < n → hcwRst (s.wordAt j) = false

/-- The host does its duty of 41_host_operations R126 at the coming `n` edges: at every reset edge among them it presents the
deployment's polarity. -/
def presentsPolarityFor (n : Nat) (s : State) : Prop :=
  ∀ j, j < n → hcwRst (s.wordAt j) = true → hcwInvert (s.wordAt j) = s.cfg.invert

/-- The five registers of the block, all it stores between edges (10_state R34). -/
def sameRegisters (s t : State) : Prop :=
  s.phase = t.phase ∧ s.cnt = t.cnt ∧ s.idx = t.idx ∧ s.F = t.F ∧ s.INV = t.INV

end Sys2Proof.Machine
end

