-- ==== Sys2Proof/Certificates/Slice0/Obligations.lean ====
section
/-! DEFINITION. The statements for the provers. A result is stated as the whole next state, so each says its frame too: a
field that the record update does not name is unchanged. The fields `host`, `edges`, `pins`, `history` and `funcOut` are
the model's own (log 2, 5, 6, 11).

Every claim about the block's behaviour has the premise `resetOccurred s`, "a reset edge has occurred" (60_exceptions
R172 (b), 92_eei_decisions D10), or one that contains it (`SafeState`, `Reachable`). A claim without it is about a reset
edge and what follows it, where the edge itself meets the premise; about the reserved phase codes, whose step R172 itself
excepts and which only a power-on draw holds (`edgeClaimed` joins the three); about a refused configuration (R172 (a)); or
says that before the first reset edge the observation is free (10_state R40). -/

open Sys2Proof Sys2Proof.Machine

/-! ### Encodings -/

/-- 30_encoding R70 and R71: every host-cycle word is matched by exactly one row, and decodes to that row's operation with
the fields of R70; no word is illegal. -/
def Obligations.EveryHostWordIsExactlyOneOperation : Prop :=
  ∀ w : HostWord,
    (w &&& 0x2000000#27 = 0x2000000#27 ∨ w &&& 0x3000000#27 = 0x1000000#27 ∨ w &&& 0x3000000#27 = 0x0000000#27) ∧
    ¬ (w &&& 0x2000000#27 = 0x2000000#27 ∧ w &&& 0x3000000#27 = 0x1000000#27) ∧
    ¬ (w &&& 0x2000000#27 = 0x2000000#27 ∧ w &&& 0x3000000#27 = 0x0000000#27) ∧
    ¬ (w &&& 0x3000000#27 = 0x1000000#27 ∧ w &&& 0x3000000#27 = 0x0000000#27) ∧
    (w &&& 0x2000000#27 = 0x2000000#27 →
      decodeHostWord w = .reset (w.getLsbD 26) (w.getLsbD 24) (w.extractLsb' 0 24)) ∧
    (w &&& 0x3000000#27 = 0x1000000#27 → decodeHostWord w = .send (w.getLsbD 26) (w.extractLsb' 0 24)) ∧
    (w &&& 0x3000000#27 = 0x0000000#27 → decodeHostWord w = .nop (w.getLsbD 26) (w.extractLsb' 0 24))

/-- Decoding undoes encoding for every instruction that has a word, encoding undoes decoding for every word, and a `FUNC`
row has no word (30_encoding R70, R71, R80, R84). -/
def Obligations.DecodeAndEncodeAgree : Prop :=
  (∀ i : Instr, i.wellFormed = true → ∃ e, encode i = some e ∧ decodeEncoded e = i) ∧
  (∀ e : Encoded, encode (decodeEncoded e) = some e) ∧
  (∀ i : Instr, i.wellFormed = false → encode i = none)

/-- Words written out from 30_encoding R70, R71, R80 and R83 decode to the operations they stand for. The last two clauses,
that a number with a bit the word does not have is refused by name, are the model's choice (DESIGN CHOICE, log 8). -/
def Obligations.WordsOfTheSpecDecode : Prop :=
  decode .hcw 0x6000000 = .ok (.reset true false 0x000000#24) ∧
  decode .hcw 0x3000001 = .ok (.reset false true 0x000001#24) ∧
  decode .hcw 0x1123456 = .ok (.send false 0x123456#24) ∧
  decode .hcw 0x0000000 = .ok (.nop false 0x000000#24) ∧
  decode .hcw 0x4000000 = .ok (.nop true 0x000000#24) ∧
  decode .phase 0b000 = .ok .idle ∧ decode .phase 0b001 = .ok .pre ∧ decode .phase 0b010 = .ok .h1 ∧
  decode .phase 0b011 = .ok .h2 ∧ decode .phase 0b100 = .ok .gap ∧ decode .phase 0b101 = .ok .phaseRsvd101 ∧
  decode .phase 0b110 = .ok .phaseRsvd110 ∧ decode .phase 0b111 = .ok .phaseRsvd111 ∧
  decode .hcw 0x8000000 = .error .notAHostWord ∧ decode .phase 0b1000 = .error .notAPhaseCode

/-! ### CSUM and FRAME -/

/-- The pure functions evaluated on their own: each runs in every state and configuration, answers its value in the model's
own `funcOut` (log 6), and changes no register, port or output (10_state R34, R36; 40_frame_encoder R100, R102). -/
def Obligations.PureFunctionsAnswerAndWriteNoRegister : Prop :=
  ∀ (op : Opcode) (s : State), resetOccurred s →
    (∃ t, exec (.csum op) s = .next t ∧ t = { s with funcOut := .csum (csum op) } ∧ sameRegisters s t ∧
      t.outputs = s.outputs) ∧
    (∃ t, exec (.frame op) s = .next t ∧ t = { s with funcOut := .frame (frame op) } ∧ sameRegisters s t ∧
      t.outputs = s.outputs)

/-- 40_frame_encoder R100: the checksum, its corner cases and its worked example. -/
def Obligations.CsumIsTheXorOfSixWindows : Prop :=
  (∀ op : Opcode,
    csum op = (op.extractLsb 1 0).setWidth 4 ^^^ op.extractLsb 5 2 ^^^ op.extractLsb 9 6 ^^^
      op.extractLsb 13 10 ^^^ op.extractLsb 17 14 ^^^ op.extractLsb 21 18) ∧
  (∀ op : Opcode, ((op.extractLsb 1 0).setWidth 4 : Checksum).toNat ≤ 3) ∧
  csum 0#24 = 0#4 ∧
  (∀ a b : Opcode, a.extractLsb 21 0 = b.extractLsb 21 0 → csum a = csum b) ∧
  (∀ a b : Opcode, a.extractLsb 21 2 = b.extractLsb 21 2 → (csum a).extractLsb 3 2 = (csum b).extractLsb 3 2) ∧
  csum 0x123456#24 = 0x7#4

/-- 40_frame_encoder R101: linearity over XOR, which checksum bit each opcode bit flips, and the pairs of bits that
cancel. -/
def Obligations.CsumIsLinear : Prop :=
  (∀ a b : Opcode, csum (a ^^^ b) = csum a ^^^ csum b) ∧
  (∀ (a : Opcode) (k : Nat), k ≤ 1 → csum (a ^^^ (1#24 <<< k)) = csum a ^^^ (1#4 <<< k)) ∧
  (∀ (a : Opcode) (k : Nat), 2 ≤ k → k ≤ 21 → csum (a ^^^ (1#24 <<< k)) = csum a ^^^ (1#4 <<< ((k - 2) % 4))) ∧
  (∀ (a : Opcode) (k : Nat), 22 ≤ k → k ≤ 23 → csum (a ^^^ (1#24 <<< k)) = csum a) ∧
  (∀ (a : Opcode) (k : Nat), 2 ≤ k → k + 4 ≤ 21 →
    csum (a ^^^ (1#24 <<< k) ^^^ (1#24 <<< (k + 4))) = csum a)

/-- 40_frame_encoder R102: the frame formula, its corner cases and its worked example. -/
def Obligations.FrameFollowsTheFormula : Prop :=
  (∀ op : Opcode, frame op = 0xFE000000#32 ||| (op.setWidth 32 <<< 6) ||| ((csum op).setWidth 32 <<< 2)) ∧
  frame 0#24 = 0xFE000000#32 ∧
  (∀ op : Opcode, (frame op).extractLsb 1 0 = 0b00#2) ∧
  (∀ op : Opcode, (op.setWidth 32 <<< 6 : BitVec 32).toNat = op.toNat * 2 ^ 6 ∧ op.toNat * 2 ^ 6 < 2 ^ 30) ∧
  (∀ a b : Opcode, a.extractLsb 18 0 = b.extractLsb 18 0 → (frame a).extractLsb 31 6 = (frame b).extractLsb 31 6) ∧
  frame 0x000001#24 = 0xFE000044#32

/-- 40_frame_encoder R103: the frame as a concatenation of four fields. -/
def Obligations.FrameIsFourFields : Prop :=
  ∀ op : Opcode, frame op = 0b1111111#7 ++ op.extractLsb 18 0 ++ csum op ++ 0b00#2

/-- 40_frame_encoder R104, clauses (a) to (d). -/
def Obligations.FrameBitsAndInjectivity : Prop :=
  (∀ op : Opcode, (frame op).extractLsb 31 25 = 0b1111111#7 ∧ (frame op).extractLsb 1 0 = 0b00#2) ∧
  (∀ op : Opcode, (op.getLsbD 18 = false → (frame op).extractLsb 31 24 = 0xFE#8) ∧
    (op.getLsbD 18 = true → (frame op).extractLsb 31 24 = 0xFF#8)) ∧
  (∀ a b : Opcode, frame a = frame b ↔ a.extractLsb 21 0 = b.extractLsb 21 0) ∧
  (∀ a b : Opcode, a.extractLsb 18 0 = b.extractLsb 18 0 → csum a = csum b → frame a = frame b) ∧
  (∀ op : Opcode, (frame op).extractLsb 5 2 = csum op ∧ (frame op).extractLsb 23 6 = op.extractLsb 17 0)

/-! ### The host operations -/

/-- 41_host_operations R120 and 10_state R39: the state and the outputs after a `RESET`, from every state: the edge itself
is the reset edge that has then occurred. -/
def Obligations.ResetGivesTheResetState : Prop :=
  ∀ (inv q : Bool) (o : Opcode) (s : State), s.cfg.legal = true →
    ∃ t, exec (.reset inv q o) s = .next t ∧
      t = { s with
        phase := 0b000#3, cnt := 0, idx := 0#5, F := 0x00000000#32, INV := inv, history := .sinceReset } ∧
      t.outputs = { line := inv, ready := true, stPhase := 0b000#3, stIdx := 0#5, stFrame := 0x00000000#32 } ∧
      t.observe = t.outputs ∧ resetOccurred t

/-- What `State.reset` holds (10_state R39), with nothing placed. The parameters are the defaults of 00_scope R6, and
`INVERT`, which has none, is a free value; that `INV` is this `INVERT` is the model's choice (log 1); the rest are the
model's own fields (log 2, 5, 6). -/
def Obligations.ResetStateHoldsTheSpecValues : Prop :=
  State.reset.phase = 0b000#3 ∧ State.reset.cnt = 0 ∧ State.reset.idx = 0#5 ∧ State.reset.F = 0x00000000#32 ∧
  State.reset.INV = State.reset.cfg.invert ∧ State.reset.observe.line = State.reset.cfg.invert ∧
  State.reset.cfg.invert = Config.openInvert ∧ State.reset.observe.ready = true ∧
  State.reset.cfg.nPre = 500 ∧ State.reset.cfg.nHalf = 250 ∧ State.reset.cfg.nGap = 3300 ∧
  State.reset.cfg.cntW = 12 ∧ State.reset.host = [] ∧ Sys2Proof.core.reset = State.reset

/-- 41_host_operations R122: a `SEND` is accepted in `IDLE`, for every opcode; in any other phase it is that phase's step,
whatever its opcode, as a `NOP` is. -/
def Obligations.SendIsAcceptedOnlyInIdle : Prop :=
  ∀ (inv : Bool) (o : Opcode) (s : State), s.cfg.legal = true → resetOccurred s →
    (s.phase = 0b000#3 →
      ∃ t, exec (.send inv o) s = .next t ∧
        t = { s with
          F := frame o, phase := 0b001#3, cnt := s.cfg.nPre - 1, idx := 31#5, history := s.history.accepted } ∧
        t.ready = false ∧ t.lvl = MARK) ∧
    (s.phase ≠ 0b000#3 →
      exec (.send inv o) s = exec (decodePhase s.phase) s ∧ (∃ t, exec (.send inv o) s = .next t) ∧
      ∀ (inv' : Bool) (o' : Opcode), exec (.send inv o) s = exec (.nop inv' o') s)

/-- 41_host_operations R123: what the host sees when its request is accepted. -/
def Obligations.HostSeesTheAcceptance : Prop :=
  ∀ s : State, s.cfg.legal = true → resetOccurred s → s.ready = true → hcwRst s.nextWord = false →
    hcwReq s.nextWord = true →
    ∃ t, step s = .next t ∧ t.outputs.ready = false ∧ t.outputs.stPhase = 0b001#3 ∧
      t.outputs.stFrame = frame (hcwOpcode s.nextWord)

/-- 41_host_operations R125: a `NOP` is the step of the phase with no request; in `IDLE` it changes no register, and in a
reserved phase it returns to `IDLE`. -/
def Obligations.NopRunsThePhaseStep : Prop :=
  ∀ (inv : Bool) (o : Opcode) (s : State), s.cfg.legal = true → resetOccurred s →
    (∃ t, exec (.nop inv o) s = .next t) ∧
    (s.phase = 0b000#3 → exec (.nop inv o) s = .next s) ∧
    (s.phase ≠ 0b000#3 → exec (.nop inv o) s = exec (decodePhase s.phase) s) ∧
    (5 ≤ s.phase.toNat → exec (.nop inv o) s = .next { s with phase := 0b000#3, cnt := 0 })

/-! ### The sequencer steps -/

/-- 42_line_sequencer R141: `IDLE` accepts a request and else changes nothing; the line is SPACE. -/
def Obligations.IdleWaitsOrAccepts : Prop :=
  ∀ s : State, s.cfg.legal = true → resetOccurred s → s.phase = 0b000#3 →
    (s.req = true →
      exec .idle s = .next { s with
        F := frame s.opcode, phase := 0b001#3, cnt := s.cfg.nPre - 1, idx := 31#5, history := s.history.accepted }) ∧
    (s.req = false → exec .idle s = .next s ∧ s.ready = true) ∧
    s.lvl = SPACE ∧ s.line = s.INV

/-- 42_line_sequencer R142: the `PRE` step. -/
def Obligations.PreCountsThenEntersH1 : Prop :=
  ∀ s : State, s.cfg.legal = true → resetOccurred s → s.phase = 0b001#3 →
    (s.cnt ≠ 0 → exec .pre s = .next { s with cnt := s.cnt - 1 }) ∧
    (s.cnt = 0 → exec .pre s = .next { s with phase := 0b010#3, cnt := s.cfg.nHalf - 1 }) ∧
    ∀ t, exec .pre s = .next t → t.ready = false

/-- 42_line_sequencer R143: the `H1` step, and the line level `F[idx]`. -/
def Obligations.H1CountsThenEntersH2 : Prop :=
  ∀ s : State, s.cfg.legal = true → resetOccurred s → s.phase = 0b010#3 →
    (s.cnt ≠ 0 → exec .h1 s = .next { s with cnt := s.cnt - 1 }) ∧
    (s.cnt = 0 → exec .h1 s = .next { s with phase := 0b011#3, cnt := s.cfg.nHalf - 1 }) ∧
    s.lvl = s.F.getLsbD s.idx.toNat

/-- 42_line_sequencer R144: the `H2` step, and the line level `~F[idx]`. -/
def Obligations.H2CountsThenNextBitOrGap : Prop :=
  ∀ s : State, s.cfg.legal = true → resetOccurred s → s.phase = 0b011#3 →
    (s.cnt ≠ 0 → exec .h2 s = .next { s with cnt := s.cnt - 1 }) ∧
    (s.cnt = 0 → s.idx ≠ 0#5 →
      exec .h2 s = .next { s with idx := s.idx - 1#5, phase := 0b010#3, cnt := s.cfg.nHalf - 1 } ∧
      (s.idx - 1#5).toNat + 1 = s.idx.toNat) ∧
    (s.cnt = 0 → s.idx = 0#5 → exec .h2 s = .next { s with phase := 0b100#3, cnt := s.cfg.nGap - 1 }) ∧
    s.lvl = !s.F.getLsbD s.idx.toNat

/-- 42_line_sequencer R145 and 70_reset_and_hazards R201: the `GAP` step; the line is SPACE; a request at the edge that ends
the gap is not accepted, while the next edge accepts it. So after the last half-period of a frame, a MARK, at least
`N_GAP + 1` SPACE cycles come before the next sync pulse, and exactly so many for a host that holds its request. -/
def Obligations.GapCountsThenIdlesAndKeepsFramesApart : Prop :=
  (∀ s : State, s.cfg.legal = true → resetOccurred s → s.phase = 0b100#3 →
    (s.cnt ≠ 0 → exec .gap s = .next { s with cnt := s.cnt - 1 }) ∧
    (s.cnt = 0 → exec .gap s = .next { s with phase := 0b000#3 }) ∧
    s.lvl = SPACE ∧
    (s.cnt = 0 → noResetFor 2 s → hcwReq (s.wordAt 1) = true →
      ∃ t u, step s = .next t ∧ t.phase = 0b000#3 ∧ t.F = s.F ∧ t.ready = true ∧
        step t = .next u ∧ u.phase = 0b001#3 ∧ u.F = frame (hcwOpcode (s.wordAt 1)))) ∧
  (∀ s : State, SafeState s → s.phase = 0b011#3 → s.idx = 0#5 → s.cnt = 0 →
    s.lvl = MARK ∧
    (∀ n, 1 ≤ n → n ≤ s.cfg.nGap + 1 → noResetFor n s → ∃ t, run n s = .next t ∧ t.lvl = SPACE) ∧
    (noResetFor (s.cfg.nGap + 2) s → hcwReq (s.wordAt (s.cfg.nGap + 1)) = true →
      ∃ t, run (s.cfg.nGap + 2) s = .next t ∧ t.phase = 0b001#3 ∧ t.lvl = MARK))

/-- 42_line_sequencer R146: the step of each reserved phase code, whatever is requested; the line is SPACE; no state that a
reset edge has led to holds one. So the step is stated of every state: "These codes are reachable only from the unspecified
power-on state", and 60_exceptions R172 says that their step "is the block's behaviour, not a guess". -/
def Obligations.ReservedPhasesReturnToIdle : Prop :=
  (∀ s : State, Reachable s → ¬ 5 ≤ s.phase.toNat) ∧
  ∀ s : State, s.cfg.legal = true →
    (s.phase = 0b101#3 → exec .phaseRsvd101 s = .next { s with phase := 0b000#3, cnt := 0 } ∧ s.lvl = SPACE) ∧
    (s.phase = 0b110#3 → exec .phaseRsvd110 s = .next { s with phase := 0b000#3, cnt := 0 } ∧ s.lvl = SPACE) ∧
    (s.phase = 0b111#3 → exec .phaseRsvd111 s = .next { s with phase := 0b000#3, cnt := 0 } ∧ s.lvl = SPACE) ∧
    (5 ≤ s.phase.toNat → hcwRst s.nextWord = false →
      ∃ t, step s = .next t ∧ t.phase = 0b000#3 ∧ t.cnt = 0 ∧ t.idx = s.idx ∧ t.F = s.F ∧ t.INV = s.INV ∧ t.ready = true)

/-- 42_line_sequencer R147, R148 and R149: the outputs as functions of the registers, which are what a run shows. -/
def Obligations.OutputsFollowTheRegisters : Prop :=
  ∀ s : State, resetOccurred s →
    (s.phase = 0b001#3 → s.lvl = true) ∧
    (s.phase = 0b010#3 → s.lvl = s.F.getLsbD s.idx.toNat) ∧
    (s.phase = 0b011#3 → s.lvl = !s.F.getLsbD s.idx.toNat) ∧
    (s.phase = 0b000#3 ∨ s.phase = 0b100#3 ∨ s.phase = 0b101#3 ∨ s.phase = 0b110#3 ∨ s.phase = 0b111#3 →
      s.lvl = false) ∧
    s.line = Bool.xor s.lvl s.INV ∧
    (s.ready = true ↔ s.phase = 0b000#3) ∧
    s.outputs = { line := s.line, ready := s.ready, stPhase := s.phase, stIdx := s.idx, stFrame := s.F } ∧
    s.observe = s.outputs

/-! ### The step -/

/-- A step samples the coming host-cycle word and runs the instruction it decodes to. The schedule, the sampled word and
the edge count are the model's own (log 2, 11). -/
def Obligations.StepRunsTheDecodedInstruction : Prop :=
  ∀ s : State, edgeClaimed s →
    step s = exec (decodeHostWord s.nextWord) s.sample ∧
    s.sample = { s with pins := s.nextWord, host := s.host.tail, edges := s.edges + 1 } ∧
    (∀ (w : HostWord) (ws : List HostWord), s.host = w :: ws → s.nextWord = w)

/-- Whatever instruction's word stands on the coming edge, or in `phase` at an edge without reset, that instruction is what
the step runs. -/
def Obligations.StepRunsTheEncodedInstruction : Prop :=
  ∀ (i : Instr) (s : State), edgeClaimed s →
    (encode i = some (.hostWord s.nextWord) → step s = exec i s.sample) ∧
    (encode i = some (.phaseCode s.phase) → hcwRst s.nextWord = false → step s = exec i s.sample)

/-- 42_line_sequencer R140: at an edge, `RESET` first, then acceptance in `IDLE`, then the step that `phase` selects;
always exactly one next state. The clauses about an edge that resets hold of the first reset edge too. -/
def Obligations.EdgePriorityResetThenAcceptThenPhase : Prop :=
  ∀ s : State, s.cfg.legal = true →
    (hcwRst s.nextWord = true →
      step s = exec (.reset (hcwInvert s.nextWord) (hcwReq s.nextWord) (hcwOpcode s.nextWord)) s.sample) ∧
    (resetOccurred s → hcwRst s.nextWord = false → hcwReq s.nextWord = true → s.phase = 0b000#3 →
      step s = exec (.send (hcwInvert s.nextWord) (hcwOpcode s.nextWord)) s.sample) ∧
    (edgeClaimed s → hcwRst s.nextWord = false → step s = exec (decodePhase s.phase) s.sample) ∧
    (edgeClaimed s → ∃ t, step s = .next t)

/-- 00_scope R7: which configurations are legal, that every clocked operation and every step refuses any other, and that
the defaults are legal, with the largest reload value 3299. -/
def Obligations.IllegalConfigurationIsRefused : Prop :=
  (∀ c : Config, c.legal = true ↔
    (1 ≤ c.nPre ∧ 1 ≤ c.nHalf ∧ 1 ≤ c.nGap) ∧
    (c.nPre - 1 < 2 ^ c.cntW ∧ c.nHalf - 1 < 2 ^ c.cntW ∧ c.nGap - 1 < 2 ^ c.cntW)) ∧
  (∀ s : State, s.cfg.legal = false →
    step s = .refused .illegalConfiguration ∧
    ∀ i : Instr, i.wellFormed = true → exec i s = .refused .illegalConfiguration) ∧
  ∀ inv : Bool, (Config.default inv).legal = true ∧
    max (max ((Config.default inv).nPre - 1) ((Config.default inv).nHalf - 1)) ((Config.default inv).nGap - 1) = 3299

/-- From any state of a legal configuration after a reset edge, any number of edges with any inputs gives a next state: no
fault, no refusal (60_exceptions R170, R172). -/
def Obligations.LegalMachineNeverStops : Prop :=
  ∀ (k : Nat) (s : State), s.cfg.legal = true → resetOccurred s →
    ∃ t, run k s = .next t ∧ resetOccurred t ∧ t.cfg = s.cfg ∧ t.funcOut = s.funcOut

/-- Placing an opcode-table row's word makes the next step run the instruction it decodes to. How a word is placed is the
model's own (log 2, 8). -/
def Obligations.FetchWordRunsTheTableRow : Prop :=
  ∀ (s : State) (w : Nat),
    (w < 2 ^ 27 → ∃ i, decodeTableWord 32 w = some i ∧
      (edgeClaimed (s.withFetchWord 32 w) → step (s.withFetchWord 32 w) = exec i (s.withFetchWord 32 w).sample)) ∧
    (w < 2 ^ 3 → ∃ i, decodeTableWord 8 w = some i ∧
      (edgeClaimed (s.withFetchWord 8 w) → step (s.withFetchWord 8 w) = exec i (s.withFetchWord 8 w).sample))

/-! ### Invariants -/

/-- The state after reset meets the invariant. That its schedule is empty and its history says so is the model's own. -/
def Obligations.ResetStateIsSafe : Prop :=
  SafeState State.reset

/-- Every step keeps the invariant, from every state that meets it (10_state R41; log 13 for what the model adds). -/
def Obligations.EveryStepKeepsSafety : Prop :=
  ∀ s t : State, SafeState s → step s = .next t → SafeState t

/-- One reset edge leads every state of a legal configuration, the power-on states among them, to a state that meets the
invariant (10_state R39, R40, R41). -/
def Obligations.OneResetEdgeReachesSafety : Prop :=
  ∀ s : State, s.cfg.legal = true → hcwRst s.nextWord = true → ∃ t, step s = .next t ∧ SafeState t

/-- 10_state R41: the invariants of every state that steps lead to from a reset edge. -/
def Obligations.ReachableStatesKeepTheInvariants : Prop :=
  ∀ s : State, Reachable s → ReachableInvariants s

/-- No edge leads to a reserved phase code: a reset edge gives `IDLE` (41_host_operations R120), a reserved code of a power-on
draw is taken back to `IDLE` (30_encoding R81 (b), 42_line_sequencer R146), and after a reset edge each step goes to a legal
phase (42_line_sequencer R141 to R145). -/
def Obligations.NoEdgeLeadsToAReservedPhase : Prop :=
  ∀ s t : State, edgeClaimed s → step s = .next t → t.phase.toNat < 5

/-- What a run shows: a free draw in every cycle before the first reset edge, and the outputs from then on (00_scope R10,
10_state R40, 70_reset_and_hazards R193; the history is the model's own, log 4, 5). -/
def Obligations.ObservationStartsAtTheFirstResetEdge : Prop :=
  (∀ c : Config, ¬ resetOccurred (State.powerOn c)) ∧
  ∀ s t : State, step s = .next t →
    (hcwRst s.nextWord = true → resetOccurred t ∧ t.observe = t.outputs) ∧
    (resetOccurred s → resetOccurred t ∧ t.observe = t.outputs) ∧
    (¬ resetOccurred s → hcwRst s.nextWord = false →
      ¬ resetOccurred t ∧ t.observe = Config.outputsBeforeReset t.edges)

/-! ### What changes a register -/

/-- 10_state R33: `INV` is written at a reset edge only, with `cfg_invert`; with `INV == 0` MARK is driven high, and with
`INV == 1` low. -/
def Obligations.OnlyResetWritesThePolarity : Prop :=
  (∀ s t : State, step s = .next t →
    (hcwRst s.nextWord = true → t.INV = hcwInvert s.nextWord) ∧
    (resetOccurred s → hcwRst s.nextWord = false → t.INV = s.INV)) ∧
  (∀ s : State, resetOccurred s → s.lvl = MARK → (s.INV = false → s.line = true) ∧ (s.INV = true → s.line = false))

/-- The parameter `INVERT` (00_scope R6, 93_implementation_defined I2) under the host's duty of 41_host_operations R126: a
reset edge at which the host presents it makes `INV` be `INVERT`, and as long as the host presents it at every further
reset edge, `INV` stays so, and the line is the logical level XORed with `INVERT`. -/
def Obligations.LineHasTheDeploymentsPolarity : Prop :=
  (∀ s : State, s.cfg.legal = true → hcwRst s.nextWord = true → presentsPolarityFor 1 s →
    ∃ t, step s = .next t ∧ resetOccurred t ∧ t.cfg = s.cfg ∧ t.INV = s.cfg.invert) ∧
  (∀ (k : Nat) (s : State), s.cfg.legal = true → resetOccurred s → s.INV = s.cfg.invert → presentsPolarityFor k s →
    ∃ t, run k s = .next t ∧ t.INV = s.cfg.invert ∧ t.observe.line = Bool.xor t.lvl s.cfg.invert)

/-- 10_state R32: `F` is written at reset with 0, at acceptance with the frame of the opcode at that edge, and never
else. -/
def Obligations.OnlyResetAndAcceptanceWriteTheFrame : Prop :=
  ∀ s t : State, step s = .next t →
    (hcwRst s.nextWord = true → t.F = 0x00000000#32) ∧
    (resetOccurred s → hcwRst s.nextWord = false →
      (s.phase = 0b000#3 → hcwReq s.nextWord = true → t.F = frame (hcwOpcode s.nextWord)) ∧
      (s.phase = 0b000#3 → hcwReq s.nextWord = false → t.F = s.F) ∧
      (s.phase ≠ 0b000#3 → t.F = s.F))

/-- 10_state R35: the next sequencer position depends on the position and `req` only (and on `rst`). -/
def Obligations.PositionAndRequestFixTheNextPosition : Prop :=
  ∀ s s' t t' : State, resetOccurred s → resetOccurred s' → s.cfg = s'.cfg → s.phase = s'.phase → s.idx = s'.idx → s.cnt = s'.cnt →
    hcwRst s.nextWord = hcwRst s'.nextWord → hcwReq s.nextWord = hcwReq s'.nextWord →
    step s = .next t → step s' = .next t' → t.phase = t'.phase ∧ t.idx = t'.idx ∧ t.cnt = t'.cnt

/-- 41_host_operations R121: a reset edge during a frame ends it, and the line is at SPACE in the new polarity; no other
edge leaves a frame before its gap ends. -/
def Obligations.OnlyResetEndsAFrameEarly : Prop :=
  ∀ s t : State, resetOccurred s → step s = .next t →
    s.phase = 0b001#3 ∨ s.phase = 0b010#3 ∨ s.phase = 0b011#3 ∨ s.phase = 0b100#3 →
    (hcwRst s.nextWord = true → t.phase = 0b000#3 ∧ t.F = 0x00000000#32 ∧
      t.line = Bool.xor SPACE (hcwInvert s.nextWord)) ∧
    (t.phase = 0b000#3 → hcwRst s.nextWord = true ∨ (s.phase = 0b100#3 ∧ s.cnt = 0))

/-- 42_line_sequencer R153: as long as the frame in progress lasts and no reset edge comes, the registers do not depend on
the inputs, `INV` and `F` stay, and the frame runs to the end of its gap. -/
def Obligations.FrameInProgressIgnoresTheInputs : Prop :=
  ∀ (s s' : State) (k : Nat), SafeState s → SafeState s' → s.cfg = s'.cfg → sameRegisters s s' →
    k ≤ cyclesToIdle s → noResetFor k s → noResetFor k s' →
    ∃ t t', run k s = .next t ∧ run k s' = .next t' ∧ sameRegisters t t' ∧ t.INV = s.INV ∧ t.F = s.F ∧
      (t.phase = 0b000#3 ↔ k = cyclesToIdle s)

/-- 70_reset_and_hazards R199: with no request in `IDLE`, the block stays as it is and the line at SPACE, for any number of
edges. -/
def Obligations.IdleWithoutRequestStaysAtSpace : Prop :=
  ∀ (k : Nat) (s : State), s.cfg.legal = true → resetOccurred s → s.phase = 0b000#3 → noResetFor k s →
    (∀ j, j < k → hcwReq (s.wordAt j) = false) →
    ∃ t, run k s = .next t ∧ sameRegisters s t ∧ t.lvl = SPACE ∧ t.line = s.INV

/-- 70_reset_and_hazards R191: the first edge after a reset edge can accept a request. -/
def Obligations.FirstEdgeAfterResetCanAccept : Prop :=
  ∀ s : State, s.cfg.legal = true → hcwRst s.nextWord = true → hcwRst (s.wordAt 1) = false →
    ∃ t u, step s = .next t ∧ step t = .next u ∧ step t = exec .idle t.sample ∧
      (hcwReq (s.wordAt 1) = true → u.phase = 0b001#3 ∧ u.F = frame (hcwOpcode (s.wordAt 1)))

/-! ### Timing and the waveform -/

/-- The cycles until `IDLE` (10_state R30, 42_line_sequencer R150) go down by one at every edge without reset of a frame
in progress; they are 0 in `IDLE` only, and `B` after an acceptance. -/
def Obligations.CyclesToIdleCountDown : Prop :=
  ∀ s t : State, SafeState s → hcwRst s.nextWord = false → step s = .next t →
    (s.phase ≠ 0b000#3 → cyclesToIdle t + 1 = cyclesToIdle s) ∧
    (s.phase = 0b000#3 → hcwReq s.nextWord = true → cyclesToIdle t = s.cfg.nPre + 64 * s.cfg.nHalf + s.cfg.nGap) ∧
    (s.phase = 0b000#3 ↔ cyclesToIdle s = 0)

/-- 42_line_sequencer R150: the phases of one frame, cycle by cycle, the busy time `B` and the frame period `P`, whatever
the inputs but `rst` are. -/
def Obligations.AcceptedFrameTiming : Prop :=
  (∀ s : State, s.cfg.legal = true → resetOccurred s → s.phase = 0b000#3 → hcwReq s.nextWord = true →
    (∀ n, 1 ≤ n → n ≤ busyCycles s.cfg + 1 → noResetFor n s →
      ∃ t, run n s = .next t ∧
        (n ≤ s.cfg.nPre → t.phase = 0b001#3) ∧
        (∀ j, j < 32 → s.cfg.nPre + 2 * j * s.cfg.nHalf + 1 ≤ n →
          n < s.cfg.nPre + 2 * j * s.cfg.nHalf + 1 + s.cfg.nHalf →
          t.phase = 0b010#3 ∧ t.idx = BitVec.ofNat 5 (31 - j)) ∧
        (∀ j, j < 32 → s.cfg.nPre + 2 * j * s.cfg.nHalf + 1 + s.cfg.nHalf ≤ n →
          n < s.cfg.nPre + 2 * j * s.cfg.nHalf + 1 + s.cfg.nHalf + s.cfg.nHalf →
          t.phase = 0b011#3 ∧ t.idx = BitVec.ofNat 5 (31 - j)) ∧
        (s.cfg.nPre + 64 * s.cfg.nHalf + 1 ≤ n → n < s.cfg.nPre + 64 * s.cfg.nHalf + 1 + s.cfg.nGap →
          t.phase = 0b100#3) ∧
        (n = busyCycles s.cfg + 1 → t.phase = 0b000#3) ∧
        (t.busy = true ↔ n ≤ busyCycles s.cfg)) ∧
    (noResetFor (busyCycles s.cfg + 2) s → hcwReq (s.wordAt (busyCycles s.cfg + 1)) = true →
      ∃ t u, run (busyCycles s.cfg + 1) s = .next t ∧ t.phase = 0b000#3 ∧ step t = .next u ∧ u.phase = 0b001#3 ∧
        u.F = frame (hcwOpcode (s.wordAt (busyCycles s.cfg + 1))))) ∧
  (∀ c : Config, busyCycles c = c.nPre + 64 * c.nHalf + c.nGap ∧ framePeriod c = busyCycles c + 1) ∧
  ∀ inv : Bool, busyCycles (Config.default inv) = 19800 ∧ framePeriod (Config.default inv) = 19801

/-- 20_memory R52, 30_encoding R77 and R78: the line shows the sync pulse, then the 32 bits of the accepted opcode's frame
from bit 31 down, each as a level and its opposite, then SPACE, in the strapped polarity. -/
def Obligations.AcceptedFrameWaveform : Prop :=
  ∀ (s : State) (n : Nat), s.cfg.legal = true → resetOccurred s → s.phase = 0b000#3 → hcwReq s.nextWord = true →
    1 ≤ n → n ≤ busyCycles s.cfg + 1 → noResetFor n s →
    ∃ t, run n s = .next t ∧ t.INV = s.INV ∧ t.F = frame (hcwOpcode s.nextWord) ∧
      t.line = Bool.xor (frameLevel s.cfg (frame (hcwOpcode s.nextWord)) n) s.INV

/-- 42_line_sequencer R151: the shape of every frame's waveform, half-period by half-period; half-period `h` of the payload
starts at cycle `N_PRE + h*N_HALF + 1`. -/
def Obligations.FrameWaveformShape : Prop :=
  ∀ (c : Config) (op : Opcode), c.legal = true →
    (∀ n, 1 ≤ n → n ≤ c.nPre + c.nHalf → frameLevel c (frame op) n = MARK) ∧
    (∀ h r, h < 64 → r < c.nHalf →
      frameLevel c (frame op) (c.nPre + h * c.nHalf + 1 + r) = frameLevel c (frame op) (c.nPre + h * c.nHalf + 1)) ∧
    (∀ h, h < 13 → frameLevel c (frame op) (c.nPre + (h + 1) * c.nHalf + 1) =
      !frameLevel c (frame op) (c.nPre + h * c.nHalf + 1)) ∧
    (∀ j, j < 32 → frameLevel c (frame op) (c.nPre + (2 * j + 1) * c.nHalf + 1) =
      !frameLevel c (frame op) (c.nPre + 2 * j * c.nHalf + 1)) ∧
    (∀ j, j < 31 →
      (frameLevel c (frame op) (c.nPre + (2 * j + 2) * c.nHalf + 1) ≠
        frameLevel c (frame op) (c.nPre + (2 * j + 1) * c.nHalf + 1) ↔
      (frame op).getLsbD (31 - j) = (frame op).getLsbD (30 - j))) ∧
    frameLevel c (frame op) (c.nPre + 60 * c.nHalf + 1) = SPACE ∧
    frameLevel c (frame op) (c.nPre + 61 * c.nHalf + 1) = MARK ∧
    frameLevel c (frame op) (c.nPre + 62 * c.nHalf + 1) = SPACE ∧
    frameLevel c (frame op) (c.nPre + 63 * c.nHalf + 1) = MARK ∧
    (∀ n, c.nPre + 64 * c.nHalf + 1 ≤ n → frameLevel c (frame op) n = SPACE)

/-- 20_memory R63: a request that is held is taken at the first edge in `IDLE`, at most `P` edges later, with the opcode
at that edge, and the sync pulse shows in the next cycle. The last clause gives the time of `P` at the defaults in periods
`T_TICK`, whatever unit counts them: 19801 periods of 1 µs are R63's 19.801 ms. -/
def Obligations.HeldRequestIsTakenWithinAPeriod : Prop :=
  (∀ s : State, SafeState s → noResetFor (framePeriod s.cfg + 1) s →
    (∀ j, j ≤ framePeriod s.cfg → hcwReq (s.wordAt j) = true) →
    ∃ k t u, k ≤ framePeriod s.cfg ∧ (∀ i, i < k → ∃ v, run i s = .next v ∧ v.phase ≠ 0b000#3) ∧
      run k s = .next t ∧ t.phase = 0b000#3 ∧ step t = .next u ∧
      u.F = frame (hcwOpcode (s.wordAt k)) ∧ u.phase = 0b001#3 ∧ u.lvl = MARK) ∧
  ∀ inv : Bool, framePeriod (Config.default inv) = 19801 ∧
    cyclesTime (Config.default inv) (framePeriod (Config.default inv)) = 19801 * (Config.default inv).tTick

/-- The figures of 70_reset_and_hazards R202 at the defaults, in cycles and in nanoseconds (log 9 for the unit). -/
def Obligations.DefaultTimingFigures : Prop :=
  ∀ inv : Bool, let c := Config.default inv
    cyclesTime c c.nPre = 500000 ∧ cyclesTime c c.nHalf = 250000 ∧ cyclesTime c (2 * c.nHalf) = 500000 ∧
    cyclesTime c (64 * c.nHalf) = 16000000 ∧ cyclesTime c c.nGap = 3300000 ∧
    cyclesTime c (busyCycles c) = 19800000 ∧ cyclesTime c (framePeriod c) = 19801000
end

