-- ==== Sys2Proof/Laws/Decode.lean ====
section
/-! SUPPORT. The fields of a host-cycle word, and what its table rows test. -/

namespace Sys2Proof

/-! ### The phase codes are distinct (30_encoding R80) -/

@[simp] theorem phaseIDLE_ne_phasePRE : phaseIDLE ≠ phasePRE := by decide
@[simp] theorem phaseIDLE_ne_phaseH1 : phaseIDLE ≠ phaseH1 := by decide
@[simp] theorem phaseIDLE_ne_phaseH2 : phaseIDLE ≠ phaseH2 := by decide
@[simp] theorem phaseIDLE_ne_phaseGAP : phaseIDLE ≠ phaseGAP := by decide
@[simp] theorem phasePRE_ne_phaseIDLE : phasePRE ≠ phaseIDLE := by decide
@[simp] theorem phasePRE_ne_phaseH1 : phasePRE ≠ phaseH1 := by decide
@[simp] theorem phasePRE_ne_phaseH2 : phasePRE ≠ phaseH2 := by decide
@[simp] theorem phasePRE_ne_phaseGAP : phasePRE ≠ phaseGAP := by decide
@[simp] theorem phaseH1_ne_phaseIDLE : phaseH1 ≠ phaseIDLE := by decide
@[simp] theorem phaseH1_ne_phasePRE : phaseH1 ≠ phasePRE := by decide
@[simp] theorem phaseH1_ne_phaseH2 : phaseH1 ≠ phaseH2 := by decide
@[simp] theorem phaseH1_ne_phaseGAP : phaseH1 ≠ phaseGAP := by decide
@[simp] theorem phaseH2_ne_phaseIDLE : phaseH2 ≠ phaseIDLE := by decide
@[simp] theorem phaseH2_ne_phasePRE : phaseH2 ≠ phasePRE := by decide
@[simp] theorem phaseH2_ne_phaseH1 : phaseH2 ≠ phaseH1 := by decide
@[simp] theorem phaseH2_ne_phaseGAP : phaseH2 ≠ phaseGAP := by decide
@[simp] theorem phaseGAP_ne_phaseIDLE : phaseGAP ≠ phaseIDLE := by decide
@[simp] theorem phaseGAP_ne_phasePRE : phaseGAP ≠ phasePRE := by decide
@[simp] theorem phaseGAP_ne_phaseH1 : phaseGAP ≠ phaseH1 := by decide
@[simp] theorem phaseGAP_ne_phaseH2 : phaseGAP ≠ phaseH2 := by decide

/-! ### Host-cycle words -/

/-- A bit of an assembled host-cycle word. -/
theorem hostWord_getLsbD (inv rst req : Bool) (o : Opcode) (k : Nat) :
    (hostWord inv rst req o).getLsbD k =
      if k < 24 then o.getLsbD k
      else if k = 24 then req
      else if k = 25 then rst
      else if k = 26 then inv
      else false := by
  unfold hostWord
  simp only [BitVec.getLsbD_append, BitVec.getLsbD_ofBool]
  by_cases h : k < 24
  · simp [h]
  · by_cases h24 : k = 24
    · simp [h24]
    · by_cases h25 : k = 25
      · simp [h25]
      · by_cases h26 : k = 26
        · simp [h26]
        · have h1 : ¬ k - 24 < 1 := by omega
          have h2 : ¬ k - 24 - 1 < 1 := by omega
          have h3 : ¬ k - 24 - 1 - 1 = 0 := by omega
          simp [h, h24, h25, h26, h1, h2, h3]

@[simp] theorem hcwInvert_hostWord (inv rst req : Bool) (o : Opcode) : hcwInvert (hostWord inv rst req o) = inv := by
  rw [hcwInvert, hostWord_getLsbD]; rfl

@[simp] theorem hcwRst_hostWord (inv rst req : Bool) (o : Opcode) : hcwRst (hostWord inv rst req o) = rst := by
  rw [hcwRst, hostWord_getLsbD]; rfl

@[simp] theorem hcwReq_hostWord (inv rst req : Bool) (o : Opcode) : hcwReq (hostWord inv rst req o) = req := by
  rw [hcwReq, hostWord_getLsbD]; rfl

@[simp] theorem hcwOpcode_hostWord (inv rst req : Bool) (o : Opcode) : hcwOpcode (hostWord inv rst req o) = o := by
  apply BitVec.eq_of_getLsbD_eq
  intro k hk
  simp [hcwOpcode, hostWord_getLsbD, hk]

/-- A word is the one its fields assemble: no bit of it is lost (30_encoding R70). -/
theorem hostWord_fields (w : HostWord) : hostWord (hcwInvert w) (hcwRst w) (hcwReq w) (hcwOpcode w) = w := by
  apply BitVec.eq_of_getLsbD_eq
  intro k hk
  rw [hostWord_getLsbD]
  by_cases h : k < 24
  · simp [h, hcwOpcode]
  · have : k = 24 ∨ k = 25 ∨ k = 26 := by omega
    rcases this with rfl | rfl | rfl <;> simp [hcwReq, hcwRst, hcwInvert]

/-- The `RESET` row of 30_encoding R71 tests `rst`. -/
theorem rowMatches_reset (w : HostWord) : rowMatches w 0x2000000#27 0x2000000#27 = hcwRst w := by
  have hb : ∀ k, (w &&& 0x2000000#27).getLsbD k = (w.getLsbD k && decide (k = 25)) := by
    intro k
    rw [BitVec.getLsbD_and]
    congr 1
    by_cases hk : k < 27
    · revert hk; revert k; decide
    · rw [BitVec.getLsbD_of_ge _ _ (by omega)]; simp; omega
  rw [rowMatches, hcwRst, Bool.eq_iff_iff, beq_iff_eq]
  constructor
  · intro h
    have := hb 25
    rw [h] at this
    simpa using this.symm
  · intro h
    apply BitVec.eq_of_getLsbD_eq
    intro k hk
    rw [hb]
    by_cases h25 : k = 25
    · subst h25; simp [h]
    · have : (0x2000000#27).getLsbD k = false := by
        revert hk h25; revert k; decide
      simp [h25, this]

/-- The `SEND` row of 30_encoding R71 tests `rst` and `req`. -/
theorem rowMatches_send (w : HostWord) : rowMatches w 0x3000000#27 0x1000000#27 = (!hcwRst w && hcwReq w) := by
  have hb : ∀ k, (w &&& 0x3000000#27).getLsbD k = (w.getLsbD k && (decide (k = 24) || decide (k = 25))) := by
    intro k
    rw [BitVec.getLsbD_and]
    congr 1
    by_cases hk : k < 27
    · revert hk; revert k; decide
    · rw [BitVec.getLsbD_of_ge _ _ (by omega)]; simp; omega
  rw [rowMatches, hcwRst, hcwReq, Bool.eq_iff_iff, beq_iff_eq]
  constructor
  · intro h
    have h24 := hb 24
    have h25 := hb 25
    rw [h] at h24 h25
    simp at h24 h25
    simp [h24, h25]
  · intro h
    simp at h
    apply BitVec.eq_of_getLsbD_eq
    intro k hk
    rw [hb]
    by_cases h24 : k = 24
    · subst h24; simp [h.2]
    · by_cases h25 : k = 25
      · subst h25; simp [h.1]
      · have : (0x1000000#27).getLsbD k = false := by
          revert hk h24 h25; revert k; decide
        simp [h24, h25, this]

/-- The decoder in terms of the fields (30_encoding R71). -/
theorem decodeHostWord_eq (w : HostWord) :
    decodeHostWord w =
      if hcwRst w then .reset (hcwInvert w) (hcwReq w) (hcwOpcode w)
      else if hcwReq w then .send (hcwInvert w) (hcwOpcode w)
      else .nop (hcwInvert w) (hcwOpcode w) := by
  unfold decodeHostWord
  rw [rowMatches_reset, rowMatches_send]
  cases hcwRst w <;> simp

end Sys2Proof
end

