-- ==== Sys2Proof/Laws/FrameEncoder.lean ====
section
/-! SUPPORT. The checksum and the frame, bit by bit. -/

namespace Sys2Proof.Machine

/-- Bit `k` of the checksum (40_frame_encoder R100): window `W0` reaches bits 0 and 1 only. -/
theorem csum_getLsbD (op : Opcode) (k : Nat) (hk : k < 4) :
    (csum op).getLsbD k =
      Bool.xor (Bool.xor (Bool.xor (Bool.xor (Bool.xor (decide (k < 2) && op.getLsbD k)
        (op.getLsbD (2 + k))) (op.getLsbD (6 + k))) (op.getLsbD (10 + k))) (op.getLsbD (14 + k))) (op.getLsbD (18 + k)) := by
  simp [csum, window0, windowAt, BitVec.getLsbD_extractLsb', hk]

/-- Each window of an XOR is the XOR of the windows. -/
theorem windowAt_xor (a b : Opcode) (off : Nat) : windowAt (a ^^^ b) off = windowAt a off ^^^ windowAt b off := by
  apply BitVec.eq_of_getLsbD_eq
  intro k hk
  simp [windowAt, hk]

theorem window0_xor (a b : Opcode) : window0 (a ^^^ b) = window0 a ^^^ window0 b := by
  apply BitVec.eq_of_getLsbD_eq
  intro k hk
  by_cases h2 : k < 2 <;> simp [window0, hk, h2]

/-- A bit of the frame, field by field (40_frame_encoder R103). -/
theorem frame_getLsbD (op : Opcode) (k : Nat) (hk : k < 32) :
    (frame op).getLsbD k =
      if 25 ≤ k then true
      else if 6 ≤ k then op.getLsbD (k - 6)
      else if 2 ≤ k then (csum op).getLsbD (k - 2)
      else false := by
  have hdr : FRAME_HDR.getLsbD k = decide (25 ≤ k) := by
    revert hk; revert k; decide
  simp only [frame, BitVec.getLsbD_or, hdr, BitVec.getLsbD_shiftLeft, BitVec.getLsbD_setWidth, BitVec.zeroExtend]
  by_cases h25 : 25 ≤ k
  · simp [h25]
  · by_cases h6 : 6 ≤ k
    · have hc : (csum op).getLsbD (k - 2) = false := BitVec.getLsbD_of_ge _ _ (by omega)
      have h32 : k - 6 < 32 := by omega
      simp [h25, h6, hc, hk, h32, Nat.not_lt.mpr h6]
    · by_cases h2 : 2 ≤ k
      · have h32 : k - 2 < 32 := by omega
        simp [h25, h6, h2, hk, h32, Nat.lt_of_not_le h6, Nat.not_lt.mpr h2]
      · simp [h25, h6, h2, hk, Nat.lt_of_not_le h6, Nat.lt_of_not_le h2]

end Sys2Proof.Machine
end

