-- ==== Sys2Proof/Laws/State.lean ====
section
/-! SUPPORT. What each update of the state does to each field, one lemma a field. -/

namespace Sys2Proof.Machine

variable (s : State)

/-! ### `setPhase` -/

@[simp] theorem State.setPhase_cfg (v : PhaseCode) : (s.setPhase v).cfg = s.cfg := rfl
@[simp] theorem State.setPhase_phase (v : PhaseCode) : (s.setPhase v).phase = v := rfl
@[simp] theorem State.setPhase_cnt (v : PhaseCode) : (s.setPhase v).cnt = s.cnt := rfl
@[simp] theorem State.setPhase_idx (v : PhaseCode) : (s.setPhase v).idx = s.idx := rfl
@[simp] theorem State.setPhase_F (v : PhaseCode) : (s.setPhase v).F = s.F := rfl
@[simp] theorem State.setPhase_INV (v : PhaseCode) : (s.setPhase v).INV = s.INV := rfl
@[simp] theorem State.setPhase_pins (v : PhaseCode) : (s.setPhase v).pins = s.pins := rfl
@[simp] theorem State.setPhase_host (v : PhaseCode) : (s.setPhase v).host = s.host := rfl
@[simp] theorem State.setPhase_edges (v : PhaseCode) : (s.setPhase v).edges = s.edges := rfl
@[simp] theorem State.setPhase_history (v : PhaseCode) : (s.setPhase v).history = s.history := rfl
@[simp] theorem State.setPhase_funcOut (v : PhaseCode) : (s.setPhase v).funcOut = s.funcOut := rfl

/-! ### `setCnt` -/

@[simp] theorem State.setCnt_cfg (v : Nat) : (s.setCnt v).cfg = s.cfg := rfl
@[simp] theorem State.setCnt_phase (v : Nat) : (s.setCnt v).phase = s.phase := rfl
@[simp] theorem State.setCnt_cnt (v : Nat) : (s.setCnt v).cnt = v := rfl
@[simp] theorem State.setCnt_idx (v : Nat) : (s.setCnt v).idx = s.idx := rfl
@[simp] theorem State.setCnt_F (v : Nat) : (s.setCnt v).F = s.F := rfl
@[simp] theorem State.setCnt_INV (v : Nat) : (s.setCnt v).INV = s.INV := rfl
@[simp] theorem State.setCnt_pins (v : Nat) : (s.setCnt v).pins = s.pins := rfl
@[simp] theorem State.setCnt_host (v : Nat) : (s.setCnt v).host = s.host := rfl
@[simp] theorem State.setCnt_edges (v : Nat) : (s.setCnt v).edges = s.edges := rfl
@[simp] theorem State.setCnt_history (v : Nat) : (s.setCnt v).history = s.history := rfl
@[simp] theorem State.setCnt_funcOut (v : Nat) : (s.setCnt v).funcOut = s.funcOut := rfl

/-! ### `setIdx` -/

@[simp] theorem State.setIdx_cfg (v : BitIndex) : (s.setIdx v).cfg = s.cfg := rfl
@[simp] theorem State.setIdx_phase (v : BitIndex) : (s.setIdx v).phase = s.phase := rfl
@[simp] theorem State.setIdx_cnt (v : BitIndex) : (s.setIdx v).cnt = s.cnt := rfl
@[simp] theorem State.setIdx_idx (v : BitIndex) : (s.setIdx v).idx = v := rfl
@[simp] theorem State.setIdx_F (v : BitIndex) : (s.setIdx v).F = s.F := rfl
@[simp] theorem State.setIdx_INV (v : BitIndex) : (s.setIdx v).INV = s.INV := rfl
@[simp] theorem State.setIdx_pins (v : BitIndex) : (s.setIdx v).pins = s.pins := rfl
@[simp] theorem State.setIdx_host (v : BitIndex) : (s.setIdx v).host = s.host := rfl
@[simp] theorem State.setIdx_edges (v : BitIndex) : (s.setIdx v).edges = s.edges := rfl
@[simp] theorem State.setIdx_history (v : BitIndex) : (s.setIdx v).history = s.history := rfl
@[simp] theorem State.setIdx_funcOut (v : BitIndex) : (s.setIdx v).funcOut = s.funcOut := rfl

/-! ### `setF` -/

@[simp] theorem State.setF_cfg (v : FrameWord) : (s.setF v).cfg = s.cfg := rfl
@[simp] theorem State.setF_phase (v : FrameWord) : (s.setF v).phase = s.phase := rfl
@[simp] theorem State.setF_cnt (v : FrameWord) : (s.setF v).cnt = s.cnt := rfl
@[simp] theorem State.setF_idx (v : FrameWord) : (s.setF v).idx = s.idx := rfl
@[simp] theorem State.setF_F (v : FrameWord) : (s.setF v).F = v := rfl
@[simp] theorem State.setF_INV (v : FrameWord) : (s.setF v).INV = s.INV := rfl
@[simp] theorem State.setF_pins (v : FrameWord) : (s.setF v).pins = s.pins := rfl
@[simp] theorem State.setF_host (v : FrameWord) : (s.setF v).host = s.host := rfl
@[simp] theorem State.setF_edges (v : FrameWord) : (s.setF v).edges = s.edges := rfl
@[simp] theorem State.setF_history (v : FrameWord) : (s.setF v).history = s.history := rfl
@[simp] theorem State.setF_funcOut (v : FrameWord) : (s.setF v).funcOut = s.funcOut := rfl

/-! ### `setINV` -/

@[simp] theorem State.setINV_cfg (v : Bool) : (s.setINV v).cfg = s.cfg := rfl
@[simp] theorem State.setINV_phase (v : Bool) : (s.setINV v).phase = s.phase := rfl
@[simp] theorem State.setINV_cnt (v : Bool) : (s.setINV v).cnt = s.cnt := rfl
@[simp] theorem State.setINV_idx (v : Bool) : (s.setINV v).idx = s.idx := rfl
@[simp] theorem State.setINV_F (v : Bool) : (s.setINV v).F = s.F := rfl
@[simp] theorem State.setINV_INV (v : Bool) : (s.setINV v).INV = v := rfl
@[simp] theorem State.setINV_pins (v : Bool) : (s.setINV v).pins = s.pins := rfl
@[simp] theorem State.setINV_host (v : Bool) : (s.setINV v).host = s.host := rfl
@[simp] theorem State.setINV_edges (v : Bool) : (s.setINV v).edges = s.edges := rfl
@[simp] theorem State.setINV_history (v : Bool) : (s.setINV v).history = s.history := rfl
@[simp] theorem State.setINV_funcOut (v : Bool) : (s.setINV v).funcOut = s.funcOut := rfl

/-! ### `setHistory` -/

@[simp] theorem State.setHistory_cfg (v : History) : (s.setHistory v).cfg = s.cfg := rfl
@[simp] theorem State.setHistory_phase (v : History) : (s.setHistory v).phase = s.phase := rfl
@[simp] theorem State.setHistory_cnt (v : History) : (s.setHistory v).cnt = s.cnt := rfl
@[simp] theorem State.setHistory_idx (v : History) : (s.setHistory v).idx = s.idx := rfl
@[simp] theorem State.setHistory_F (v : History) : (s.setHistory v).F = s.F := rfl
@[simp] theorem State.setHistory_INV (v : History) : (s.setHistory v).INV = s.INV := rfl
@[simp] theorem State.setHistory_pins (v : History) : (s.setHistory v).pins = s.pins := rfl
@[simp] theorem State.setHistory_host (v : History) : (s.setHistory v).host = s.host := rfl
@[simp] theorem State.setHistory_edges (v : History) : (s.setHistory v).edges = s.edges := rfl
@[simp] theorem State.setHistory_history (v : History) : (s.setHistory v).history = v := rfl
@[simp] theorem State.setHistory_funcOut (v : History) : (s.setHistory v).funcOut = s.funcOut := rfl

/-! ### `setFuncOut` -/

@[simp] theorem State.setFuncOut_cfg (v : FuncOut) : (s.setFuncOut v).cfg = s.cfg := rfl
@[simp] theorem State.setFuncOut_phase (v : FuncOut) : (s.setFuncOut v).phase = s.phase := rfl
@[simp] theorem State.setFuncOut_cnt (v : FuncOut) : (s.setFuncOut v).cnt = s.cnt := rfl
@[simp] theorem State.setFuncOut_idx (v : FuncOut) : (s.setFuncOut v).idx = s.idx := rfl
@[simp] theorem State.setFuncOut_F (v : FuncOut) : (s.setFuncOut v).F = s.F := rfl
@[simp] theorem State.setFuncOut_INV (v : FuncOut) : (s.setFuncOut v).INV = s.INV := rfl
@[simp] theorem State.setFuncOut_pins (v : FuncOut) : (s.setFuncOut v).pins = s.pins := rfl
@[simp] theorem State.setFuncOut_host (v : FuncOut) : (s.setFuncOut v).host = s.host := rfl
@[simp] theorem State.setFuncOut_edges (v : FuncOut) : (s.setFuncOut v).edges = s.edges := rfl
@[simp] theorem State.setFuncOut_history (v : FuncOut) : (s.setFuncOut v).history = s.history := rfl
@[simp] theorem State.setFuncOut_funcOut (v : FuncOut) : (s.setFuncOut v).funcOut = v := rfl

/-! ### `sample` -/

@[simp] theorem State.sample_cfg : (s.sample).cfg = s.cfg := rfl
@[simp] theorem State.sample_phase : (s.sample).phase = s.phase := rfl
@[simp] theorem State.sample_cnt : (s.sample).cnt = s.cnt := rfl
@[simp] theorem State.sample_idx : (s.sample).idx = s.idx := rfl
@[simp] theorem State.sample_F : (s.sample).F = s.F := rfl
@[simp] theorem State.sample_INV : (s.sample).INV = s.INV := rfl
@[simp] theorem State.sample_pins : (s.sample).pins = s.nextWord := rfl
@[simp] theorem State.sample_host : (s.sample).host = s.host.tail := rfl
@[simp] theorem State.sample_edges : (s.sample).edges = s.edges + 1 := rfl
@[simp] theorem State.sample_history : (s.sample).history = s.history := rfl
@[simp] theorem State.sample_funcOut : (s.sample).funcOut = s.funcOut := rfl

/-! ### `placeHostWord` -/

@[simp] theorem State.placeHostWord_cfg (w : HostWord) : (s.placeHostWord w).cfg = s.cfg := rfl
@[simp] theorem State.placeHostWord_phase (w : HostWord) : (s.placeHostWord w).phase = s.phase := rfl
@[simp] theorem State.placeHostWord_cnt (w : HostWord) : (s.placeHostWord w).cnt = s.cnt := rfl
@[simp] theorem State.placeHostWord_idx (w : HostWord) : (s.placeHostWord w).idx = s.idx := rfl
@[simp] theorem State.placeHostWord_F (w : HostWord) : (s.placeHostWord w).F = s.F := rfl
@[simp] theorem State.placeHostWord_INV (w : HostWord) : (s.placeHostWord w).INV = s.INV := rfl
@[simp] theorem State.placeHostWord_pins (w : HostWord) : (s.placeHostWord w).pins = s.pins := rfl
@[simp] theorem State.placeHostWord_host (w : HostWord) : (s.placeHostWord w).host = w :: s.host.tail := rfl
@[simp] theorem State.placeHostWord_edges (w : HostWord) : (s.placeHostWord w).edges = s.edges := rfl
@[simp] theorem State.placeHostWord_history (w : HostWord) : (s.placeHostWord w).history = s.history := rfl
@[simp] theorem State.placeHostWord_funcOut (w : HostWord) : (s.placeHostWord w).funcOut = s.funcOut := rfl

/-! ### `loadProgram` -/

@[simp] theorem State.loadProgram_cfg (ws : List HostWord) : (s.loadProgram ws).cfg = s.cfg := rfl
@[simp] theorem State.loadProgram_phase (ws : List HostWord) : (s.loadProgram ws).phase = s.phase := rfl
@[simp] theorem State.loadProgram_cnt (ws : List HostWord) : (s.loadProgram ws).cnt = s.cnt := rfl
@[simp] theorem State.loadProgram_idx (ws : List HostWord) : (s.loadProgram ws).idx = s.idx := rfl
@[simp] theorem State.loadProgram_F (ws : List HostWord) : (s.loadProgram ws).F = s.F := rfl
@[simp] theorem State.loadProgram_INV (ws : List HostWord) : (s.loadProgram ws).INV = s.INV := rfl
@[simp] theorem State.loadProgram_pins (ws : List HostWord) : (s.loadProgram ws).pins = s.pins := rfl
@[simp] theorem State.loadProgram_host (ws : List HostWord) : (s.loadProgram ws).host = ws := rfl
@[simp] theorem State.loadProgram_edges (ws : List HostWord) : (s.loadProgram ws).edges = s.edges := rfl
@[simp] theorem State.loadProgram_history (ws : List HostWord) : (s.loadProgram ws).history = s.history := rfl
@[simp] theorem State.loadProgram_funcOut (ws : List HostWord) : (s.loadProgram ws).funcOut = s.funcOut := rfl

end Sys2Proof.Machine
end

