-- ==== Sys2Proof/Laws/Ops.lean ====
section
/-! SUPPORT. What each shared operation can do, said once. -/

namespace Sys2Proof.Machine

/-! ### `clocked` -/

theorem clocked_of_legal {s t : State} (h : s.cfg.legal = true) : clocked s t = .next t := by
  simp [clocked, h]

theorem clocked_of_not_legal {s t : State} (h : s.cfg.legal = false) :
    clocked s t = .refused .illegalConfiguration := by
  simp [clocked, h]

/-- A clocked operation answers a next state exactly in a legal configuration, and then its own. -/
theorem clocked_eq_next {s t u : State} : clocked s t = .next u ↔ s.cfg.legal = true ∧ u = t := by
  unfold clocked
  split
  · simp [*, eq_comm]
  · simp [*]

/-! ### Reset, acceptance, counting and entering a phase -/

theorem resetTo_eq (inv : Bool) (s : State) :
    resetTo inv s =
      { s with phase := phaseIDLE, cnt := 0, idx := 0#5, F := 0x00000000#32, INV := inv, history := .sinceReset } := rfl

theorem accept_eq (op : Opcode) (s : State) :
    accept op s =
      { s with F := frame op, phase := phasePRE, cnt := s.cfg.nPre - 1, idx := 31#5, history := s.history.accepted } := rfl

theorem countDown_eq (s : State) : countDown s = { s with cnt := s.cnt - 1 } := rfl

theorem enterPhase_eq (p : PhaseCode) (n : Nat) (s : State) : enterPhase p n s = { s with phase := p, cnt := n - 1 } := rfl

theorem reservedStep_eq (s : State) : reservedStep s = { s with phase := phaseIDLE, cnt := 0 } := rfl

/-- An acceptance before the first reset edge does not count as one since a reset. -/
theorem accepted_eq_beforeReset {h : History} : h.accepted = .beforeReset ↔ h = .beforeReset := by
  cases h <;> simp [History.accepted]

theorem accepted_ne_sinceReset (h : History) : h.accepted ≠ .sinceReset := by
  cases h <;> simp [History.accepted]

/-! ### The phase steps -/

theorem idleStep_cases (req : Bool) (op : Opcode) (s : State) :
    (req = true ∧ idleStep req op s = accept op s) ∨ (req = false ∧ idleStep req op s = s) := by
  cases req <;> simp [idleStep]

theorem preStep_cases (s : State) :
    (s.cnt ≠ 0 ∧ preStep s = countDown s) ∨ (s.cnt = 0 ∧ preStep s = enterPhase phaseH1 s.cfg.nHalf s) := by
  by_cases h : s.cnt = 0 <;> simp [preStep, h]

theorem h1Step_cases (s : State) :
    (s.cnt ≠ 0 ∧ h1Step s = countDown s) ∨ (s.cnt = 0 ∧ h1Step s = enterPhase phaseH2 s.cfg.nHalf s) := by
  by_cases h : s.cnt = 0 <;> simp [h1Step, h]

theorem h2Step_cases (s : State) :
    (s.cnt ≠ 0 ∧ h2Step s = countDown s) ∨
    (s.cnt = 0 ∧ s.idx ≠ 0#5 ∧ h2Step s = enterPhase phaseH1 s.cfg.nHalf (s.setIdx (s.idx - 1#5))) ∨
    (s.cnt = 0 ∧ s.idx = 0#5 ∧ h2Step s = enterPhase phaseGAP s.cfg.nGap s) := by
  by_cases h : s.cnt = 0
  · by_cases h' : s.idx = 0#5 <;> simp [h2Step, h, h']
  · simp [h2Step, h]

theorem gapStep_cases (s : State) :
    (s.cnt ≠ 0 ∧ gapStep s = countDown s) ∨ (s.cnt = 0 ∧ gapStep s = s.setPhase phaseIDLE) := by
  by_cases h : s.cnt = 0 <;> simp [gapStep, h]

/-! ### Selecting the step by phase -/

theorem sequencerStep_idle {s : State} (h : s.phase = phaseIDLE) (req : Bool) (op : Opcode) :
    sequencerStep req op s = idleStep req op s := by
  simp [sequencerStep, h]

theorem sequencerStep_pre {s : State} (h : s.phase = phasePRE) (req : Bool) (op : Opcode) :
    sequencerStep req op s = preStep s := by
  rw [sequencerStep, h]; rfl

theorem sequencerStep_h1 {s : State} (h : s.phase = phaseH1) (req : Bool) (op : Opcode) :
    sequencerStep req op s = h1Step s := by
  rw [sequencerStep, h]; rfl

theorem sequencerStep_h2 {s : State} (h : s.phase = phaseH2) (req : Bool) (op : Opcode) :
    sequencerStep req op s = h2Step s := by
  rw [sequencerStep, h]; rfl

theorem sequencerStep_gap {s : State} (h : s.phase = phaseGAP) (req : Bool) (op : Opcode) :
    sequencerStep req op s = gapStep s := by
  rw [sequencerStep, h]; rfl

theorem sequencerStep_reserved {s : State} (h : 5 ≤ s.phase.toNat) (req : Bool) (op : Opcode) :
    sequencerStep req op s = reservedStep s := by
  have hne : ∀ c : PhaseCode, c.toNat < 5 → s.phase ≠ c := fun c hc e => by rw [e] at h; omega
  simp [sequencerStep, hne]

/-- Outside `IDLE` the step reads neither `req` nor `opcode` (42_line_sequencer R153). -/
theorem sequencerStep_busy_inputs {s : State} (h : s.phase ≠ phaseIDLE) (req req' : Bool) (op op' : Opcode) :
    sequencerStep req op s = sequencerStep req' op' s := by
  simp [sequencerStep, h]

/-- The eight phase codes: the five legal ones and the reserved ones. -/
theorem phase_cases (c : PhaseCode) :
    c = phaseIDLE ∨ c = phasePRE ∨ c = phaseH1 ∨ c = phaseH2 ∨ c = phaseGAP ∨ 5 ≤ c.toNat := by
  revert c; decide

/-- What the selected step leaves alone: everything but `phase`, `cnt`, `idx`, `F` and the model's own history. -/
theorem sequencerStep_frame (req : Bool) (op : Opcode) (s : State) :
    (sequencerStep req op s).cfg = s.cfg ∧ (sequencerStep req op s).INV = s.INV ∧
    (sequencerStep req op s).pins = s.pins ∧ (sequencerStep req op s).host = s.host ∧
    (sequencerStep req op s).edges = s.edges ∧ (sequencerStep req op s).funcOut = s.funcOut := by
  unfold sequencerStep idleStep preStep h1Step h2Step gapStep
  repeat' split
  all_goals simp [accept_eq, countDown_eq, enterPhase_eq, reservedStep_eq]

/-- Outside `IDLE` the selected step leaves `F` and the history alone too. -/
theorem sequencerStep_busy_frame {s : State} (h : s.phase ≠ phaseIDLE) (req : Bool) (op : Opcode) :
    (sequencerStep req op s).F = s.F ∧ (sequencerStep req op s).history = s.history := by
  unfold sequencerStep preStep h1Step h2Step gapStep
  rw [if_neg h]
  repeat' split
  all_goals simp [countDown_eq, enterPhase_eq, reservedStep_eq]

/-! ### The coming words -/

/-- Sampling moves the schedule on by one edge. -/
@[simp] theorem State.wordAt_sample (s : State) (j : Nat) : s.sample.wordAt j = s.wordAt (j + 1) := by
  unfold State.wordAt
  simp [Nat.add_assoc, Nat.add_comm 1 j]

@[simp] theorem State.rst_sample (s : State) : s.sample.rst = hcwRst s.nextWord := rfl
@[simp] theorem State.req_sample (s : State) : s.sample.req = hcwReq s.nextWord := rfl
@[simp] theorem State.opcode_sample (s : State) : s.sample.opcode = hcwOpcode s.nextWord := rfl
@[simp] theorem State.cfgInvert_sample (s : State) : s.sample.cfgInvert = hcwInvert s.nextWord := rfl

/-- The coming words depend only on the schedule and the edge count. -/
theorem State.wordAt_congr {s t : State} (hh : t.host = s.host) (he : t.edges = s.edges) (j : Nat) :
    t.wordAt j = s.wordAt j := by
  simp [State.wordAt, hh, he]

end Sys2Proof.Machine
end

