-- ==== Sys2Proof/Laws/PerInstr.lean ====
section
/-! SUPPORT. Facts stated of every instruction as syntax, one lemma a constructor. -/

namespace Sys2Proof.Laws

namespace EncodeFormat

/-- An instruction has a word exactly when it is well formed, and the word's format is its row's (30_encoding R84). -/
def Statement (i : Instr) : Prop :=
  (encode i).isSome = i.wellFormed ∧ ∀ e, encode i = some e → e.format = i.format

theorem reset (inv q : Bool) (o : Opcode) : Statement (.reset inv q o) := ⟨rfl, by rintro _ ⟨⟩; rfl⟩
theorem send (inv : Bool) (o : Opcode) : Statement (.send inv o) := ⟨rfl, by rintro _ ⟨⟩; rfl⟩
theorem nop (inv : Bool) (o : Opcode) : Statement (.nop inv o) := ⟨rfl, by rintro _ ⟨⟩; rfl⟩
theorem idle : Statement .idle := ⟨rfl, by rintro _ ⟨⟩; rfl⟩
theorem pre : Statement .pre := ⟨rfl, by rintro _ ⟨⟩; rfl⟩
theorem h1 : Statement .h1 := ⟨rfl, by rintro _ ⟨⟩; rfl⟩
theorem h2 : Statement .h2 := ⟨rfl, by rintro _ ⟨⟩; rfl⟩
theorem gap : Statement .gap := ⟨rfl, by rintro _ ⟨⟩; rfl⟩
theorem phaseRsvd101 : Statement .phaseRsvd101 := ⟨rfl, by rintro _ ⟨⟩; rfl⟩
theorem phaseRsvd110 : Statement .phaseRsvd110 := ⟨rfl, by rintro _ ⟨⟩; rfl⟩
theorem phaseRsvd111 : Statement .phaseRsvd111 := ⟨rfl, by rintro _ ⟨⟩; rfl⟩
theorem csum (op : Opcode) : Statement (.csum op) := ⟨rfl, by rintro _ ⟨⟩⟩
theorem frame (op : Opcode) : Statement (.frame op) := ⟨rfl, by rintro _ ⟨⟩⟩

end EncodeFormat

end Sys2Proof.Laws
end

