-- ==== Sys2Proof/Laws/Step.lean ====
section
/-! SUPPORT. What one step can do, said once, and how runs are put together. -/

namespace Sys2Proof.Machine

/-- The state that the coming edge leads to: the reset values, or the step that `phase` selects. -/
def edgeResult (s : State) : State :=
  if hcwRst s.nextWord then resetTo (hcwInvert s.nextWord) s.sample
  else sequencerStep (hcwReq s.nextWord) (hcwOpcode s.nextWord) s.sample

theorem edgeResult_reset {s : State} (h : hcwRst s.nextWord = true) :
    edgeResult s = resetTo (hcwInvert s.nextWord) s.sample := by
  simp [edgeResult, h]

theorem edgeResult_noReset {s : State} (h : hcwRst s.nextWord = false) :
    edgeResult s = sequencerStep (hcwReq s.nextWord) (hcwOpcode s.nextWord) s.sample := by
  simp [edgeResult, h]

/-- Running the operation of a host-cycle word. -/
theorem exec_decodeHostWord (w : HostWord) (s : State) :
    exec (decodeHostWord w) s =
      clocked s (if hcwRst w then resetTo (hcwInvert w) s else sequencerStep (hcwReq w) (hcwOpcode w) s) := by
  rw [decodeHostWord_eq]
  cases hr : hcwRst w
  · cases hq : hcwReq w
    · rfl
    · simp only [exec, execSend, Bool.false_eq_true, if_false, if_true]
      by_cases h : s.phase = phaseIDLE
      · rw [if_pos h, sequencerStep_idle h]; rfl
      · rw [if_neg h]
  · rfl

/-- Running the step that the phase code selects. -/
theorem exec_decodePhase (s : State) :
    exec (decodePhase s.phase) s = clocked s (sequencerStep s.req s.opcode s) := by
  rcases phase_cases s.phase with h | h | h | h | h | h
  · rw [sequencerStep_idle h, h]; rfl
  · rw [sequencerStep_pre h, h]; rfl
  · rw [sequencerStep_h1 h, h]; rfl
  · rw [sequencerStep_h2 h, h]; rfl
  · rw [sequencerStep_gap h, h]; rfl
  · rw [sequencerStep_reserved h]
    have hd : ∀ c : PhaseCode, 5 ≤ c.toNat →
        decodePhase c = .phaseRsvd101 ∨ decodePhase c = .phaseRsvd110 ∨ decodePhase c = .phaseRsvd111 := by decide
    rcases hd _ h with hd | hd | hd <;> rw [hd] <;> rfl

theorem step_eq (s : State) : step s = clocked s (edgeResult s) := by
  rw [step, exec_decodeHostWord]; rfl

theorem step_of_legal {s : State} (h : s.cfg.legal = true) : step s = .next (edgeResult s) := by
  rw [step_eq, clocked_of_legal h]

/-- A step answers a next state exactly in a legal configuration, and then `edgeResult`. -/
theorem step_eq_next {s t : State} : step s = .next t ↔ s.cfg.legal = true ∧ t = edgeResult s := by
  rw [step_eq, clocked_eq_next]

/-! ### What every edge leaves alone -/

@[simp] theorem edgeResult_cfg (s : State) : (edgeResult s).cfg = s.cfg := by
  unfold edgeResult
  split
  · rfl
  · exact (sequencerStep_frame _ _ _).1

@[simp] theorem edgeResult_pins (s : State) : (edgeResult s).pins = s.nextWord := by
  unfold edgeResult
  split
  · rfl
  · exact (sequencerStep_frame _ _ _).2.2.1

@[simp] theorem edgeResult_host (s : State) : (edgeResult s).host = s.host.tail := by
  unfold edgeResult
  split
  · rfl
  · exact (sequencerStep_frame _ _ _).2.2.2.1

@[simp] theorem edgeResult_edges (s : State) : (edgeResult s).edges = s.edges + 1 := by
  unfold edgeResult
  split
  · rfl
  · exact (sequencerStep_frame _ _ _).2.2.2.2.1

@[simp] theorem edgeResult_funcOut (s : State) : (edgeResult s).funcOut = s.funcOut := by
  unfold edgeResult
  split
  · rfl
  · exact (sequencerStep_frame _ _ _).2.2.2.2.2

/-- An edge uses up one word of the schedule. -/
@[simp] theorem wordAt_edgeResult (s : State) (j : Nat) : (edgeResult s).wordAt j = s.wordAt (j + 1) := by
  rw [← State.wordAt_sample]
  exact State.wordAt_congr (by simp) (by simp) j

/-! ### The polarity, and whether a reset edge has occurred -/

/-- `INV` is written at a reset edge only (10_state R33). -/
theorem edgeResult_INV (s : State) :
    (edgeResult s).INV = if hcwRst s.nextWord then hcwInvert s.nextWord else s.INV := by
  unfold edgeResult
  split
  · rfl
  · exact (sequencerStep_frame _ _ _).2.1

/-- A reset edge has occurred after an edge exactly when it had before, or that edge is one. -/
theorem edgeResult_resetOccurred (s : State) :
    resetOccurred (edgeResult s) ↔ hcwRst s.nextWord = true ∨ resetOccurred s := by
  cases hr : hcwRst s.nextWord
  · rw [edgeResult_noReset hr]
    simp only [Bool.false_eq_true, false_or, resetOccurred]
    by_cases hp : s.phase = phaseIDLE
    · rw [sequencerStep_idle (s := s.sample) hp]
      cases hcwReq s.nextWord
      · exact Iff.rfl
      · simp [idleStep, accept_eq, accepted_eq_beforeReset]
    · rw [(sequencerStep_busy_frame (s := s.sample) hp _ _).2, State.sample_history]
  · rw [edgeResult_reset hr]
    simp [resetTo_eq]

/-- Once a reset edge has occurred, what a run shows are the outputs (00_scope R10). -/
theorem observe_of_resetOccurred {s : State} (h : resetOccurred s) : s.observe = s.outputs := by
  unfold State.observe
  cases hh : s.history
  · exact absurd hh h
  · rfl
  · rfl

/-! ### Runs -/

theorem run_zero (s : State) : run 0 s = .next s := rfl

theorem run_succ_of_step {s t : State} (h : step s = .next t) (k : Nat) : run (k + 1) s = run k t := by
  rw [run, h]

/-- A run of `j + k` edges is a run of `k` edges after one of `j`. -/
theorem run_add {j k : Nat} {s t : State} (h : run j s = .next t) : run (j + k) s = run k t := by
  induction j generalizing s with
  | zero => rw [run_zero] at h; injection h with h; rw [Nat.zero_add, h]
  | succ j ih =>
    rw [show j + 1 + k = (j + k) + 1 from by omega]
    rw [run] at h ⊢
    cases hs : step s with
    | next u => rw [hs] at h; exact ih h
    | fault r => rw [hs] at h; cases h
    | refused r => rw [hs] at h; cases h

/-- One more edge at the end of a run. -/
theorem run_succ_last {k : Nat} {s t u : State} (h : run k s = .next t) (hs : step t = .next u) :
    run (k + 1) s = .next u := by
  rw [run_add h, run_succ_of_step hs, run_zero]

/-- The words left after a run of `k` edges. -/
theorem wordAt_run {k : Nat} {s t : State} (h : run k s = .next t) (j : Nat) : t.wordAt j = s.wordAt (k + j) := by
  induction k generalizing s with
  | zero => rw [run_zero] at h; injection h with h; rw [← h, Nat.zero_add]
  | succ k ih =>
    rw [run] at h
    cases hs : step s with
    | next u =>
      rw [hs] at h
      rw [ih h, (step_eq_next.mp hs).2, wordAt_edgeResult]
      congr 1; omega
    | fault r => rw [hs] at h; cases h
    | refused r => rw [hs] at h; cases h

theorem nextWord_run {k : Nat} {s t : State} (h : run k s = .next t) : t.nextWord = s.wordAt k := wordAt_run h 0

/-- The host's run, one step of it. -/
theorem core_run_succ (M : Host.Core) (k : Nat) (s : M.State) :
    M.run (k + 1) s =
      match M.step s with
      | .next t => M.run k t
      | .fault r => .fault r
      | .refused r => .refused r := by
  cases h : M.step s <;> simp [Host.Core.run, h]

/-- The host's run is this one. -/
theorem core_run_eq (k : Nat) (s : State) : Sys2Proof.core.run k s = run k s := by
  induction k generalizing s with
  | zero => rfl
  | succ k ih =>
    refine (core_run_succ Sys2Proof.core k s).trans ?_
    cases h : step s with
    | next t =>
      have hc : Sys2Proof.core.step s = .next t := h
      rw [run_succ_of_step h, hc]
      exact ih t
    | fault r => cases r
    | refused r =>
      have hc : Sys2Proof.core.step s = .refused r := h
      rw [hc, run, h]
      rfl

end Sys2Proof.Machine
end

