-- ==== Sys2Proof/Laws/Timing.lean ====
section
/-! SUPPORT. Counting down a frame in progress: what one edge does to `cyclesToIdle`, and how `cyclesToIdle` fixes the
phase. -/

namespace Sys2Proof.Machine

/-- A legal configuration's phases each have a cycle. -/
theorem Config.legal_pos {c : Config} (h : c.legal = true) : 1 ≤ c.nPre ∧ 1 ≤ c.nHalf ∧ 1 ≤ c.nGap := by
  simp [Config.legal, durationLegal] at h
  omega

/-- What of 10_state R41 the timing rests on: it holds after an acceptance from any state, before the first reset edge
too. -/
structure Timed (s : State) : Prop where
  legal : s.cfg.legal = true
  phaseLegal : s.phase = phaseIDLE ∨ s.phase = phasePRE ∨ s.phase = phaseH1 ∨ s.phase = phaseH2 ∨ s.phase = phaseGAP
  preOk : s.phase = phasePRE → s.idx = 31#5 ∧ s.cnt ≤ s.cfg.nPre - 1
  halfOk : s.phase = phaseH1 ∨ s.phase = phaseH2 → s.cnt ≤ s.cfg.nHalf - 1
  gapOk : s.phase = phaseGAP → s.cnt ≤ s.cfg.nGap - 1

theorem SafeState.timed {s : State} (h : SafeState s) : Timed s :=
  ⟨h.legal, h.inv.phaseLegal, h.inv.preOk, h.inv.halfOk, fun p => (h.inv.gapOk p).2⟩

theorem Timed.sample {s : State} (h : Timed s) : Timed s.sample :=
  ⟨h.legal, h.phaseLegal, h.preOk, h.halfOk, h.gapOk⟩

theorem Timed.accept {s : State} (h : s.cfg.legal = true) (op : Opcode) : Timed (accept op s) := by
  rw [accept_eq]
  exact ⟨h, .inr (.inl rfl), fun _ => ⟨rfl, le_refl _⟩, by simp, by simp⟩

/-- The index counts down without a wrap (42_line_sequencer R144). -/
theorem idx_pred (x : BitIndex) (h : x ≠ 0#5) : (x - 1#5).toNat + 1 = x.toNat := by
  revert h; revert x; decide

/-- The step of a busy phase keeps `Timed` and brings `IDLE` one cycle nearer. -/
theorem Timed.busyStep {s : State} (h : Timed s) (hb : s.phase ≠ phaseIDLE) (req : Bool) (op : Opcode) :
    Timed (sequencerStep req op s) ∧ cyclesToIdle (sequencerStep req op s) + 1 = cyclesToIdle s := by
  obtain ⟨hl, h1, h2, h3, h4⟩ := h
  have hL := Config.legal_pos hl
  rcases h1 with p | p | p | p | p
  · exact absurd p hb
  · rw [sequencerStep_pre p]
    have := h2 p
    rcases preStep_cases s with ⟨c, e⟩ | ⟨c, e⟩ <;> rw [e]
    · rw [countDown_eq]
      refine ⟨⟨hl, .inr (.inl p), fun _ => ⟨this.1, by dsimp only; omega⟩, by simp [p], by simp [p]⟩, ?_⟩
      simp [cyclesToIdle, p]; omega
    · rw [enterPhase_eq]
      refine ⟨⟨hl, .inr (.inr (.inl rfl)), by simp, fun _ => le_refl _, by simp⟩, ?_⟩
      simp [cyclesToIdle, p, this.1, c]; omega
  · rw [sequencerStep_h1 p]
    have := h3 (.inl p)
    rcases h1Step_cases s with ⟨c, e⟩ | ⟨c, e⟩ <;> rw [e]
    · rw [countDown_eq]
      refine ⟨⟨hl, .inr (.inr (.inl p)), by simp [p], fun _ => by dsimp only; omega, by simp [p]⟩, ?_⟩
      simp [cyclesToIdle, p]; omega
    · rw [enterPhase_eq]
      refine ⟨⟨hl, .inr (.inr (.inr (.inl rfl))), by simp, fun _ => le_refl _, by simp⟩, ?_⟩
      simp [cyclesToIdle, p, c, Nat.add_mul]; omega
  · rw [sequencerStep_h2 p]
    have := h3 (.inr p)
    rcases h2Step_cases s with ⟨c, e⟩ | ⟨c, d, e⟩ | ⟨c, d, e⟩ <;> rw [e]
    · rw [countDown_eq]
      refine ⟨⟨hl, .inr (.inr (.inr (.inl p))), by simp [p], fun _ => by dsimp only; omega, by simp [p]⟩, ?_⟩
      simp [cyclesToIdle, p]; omega
    · rw [enterPhase_eq]
      refine ⟨⟨hl, .inr (.inr (.inl rfl)), by simp, fun _ => le_refl _, by simp⟩, ?_⟩
      have e2 : (2 * (s.idx - 1#5).toNat + 1) * s.cfg.nHalf + s.cfg.nHalf = 2 * s.idx.toNat * s.cfg.nHalf := by
        rw [← idx_pred _ d]; ring
      simp only [cyclesToIdle, State.setIdx_cfg, State.setIdx_idx, p, c, phaseH1_ne_phasePRE, phaseH2_ne_phasePRE,
        phaseH2_ne_phaseH1, if_false, if_true]
      omega
    · rw [enterPhase_eq]
      refine ⟨⟨hl, .inr (.inr (.inr (.inr rfl))), by simp, by simp, fun _ => le_refl _⟩, ?_⟩
      simp [cyclesToIdle, p, c, d]; omega
  · rw [sequencerStep_gap p]
    have := h4 p
    rcases gapStep_cases s with ⟨c, e⟩ | ⟨c, e⟩ <;> rw [e]
    · rw [countDown_eq]
      refine ⟨⟨hl, .inr (.inr (.inr (.inr p))), by simp [p], by simp [p], fun _ => by dsimp only; omega⟩, ?_⟩
      simp [cyclesToIdle, p]; omega
    · exact ⟨⟨hl, .inl rfl, by simp, by simp, by simp⟩, by simp [cyclesToIdle, p, c]⟩

/-- `cyclesToIdle` is 0 in `IDLE` only. -/
theorem Timed.idle_iff {s : State} (h : Timed s) : s.phase = phaseIDLE ↔ cyclesToIdle s = 0 := by
  rcases h.phaseLegal with p | p | p | p | p <;> simp [cyclesToIdle, p]

/-- Where `cyclesToIdle` lies in each phase. -/
theorem Timed.position {t : State} (h : Timed t) :
    (t.phase = phaseIDLE ∧ cyclesToIdle t = 0) ∨
    (t.phase = phasePRE ∧ 64 * t.cfg.nHalf + t.cfg.nGap < cyclesToIdle t) ∨
    (t.phase = phaseH1 ∧ (2 * t.idx.toNat + 1) * t.cfg.nHalf + t.cfg.nGap < cyclesToIdle t ∧
      cyclesToIdle t ≤ (2 * t.idx.toNat + 2) * t.cfg.nHalf + t.cfg.nGap) ∨
    (t.phase = phaseH2 ∧ 2 * t.idx.toNat * t.cfg.nHalf + t.cfg.nGap < cyclesToIdle t ∧
      cyclesToIdle t ≤ (2 * t.idx.toNat + 1) * t.cfg.nHalf + t.cfg.nGap) ∨
    (t.phase = phaseGAP ∧ 0 < cyclesToIdle t ∧ cyclesToIdle t ≤ t.cfg.nGap) := by
  obtain ⟨hl, h1, h2, h3, h4⟩ := h
  have hL := Config.legal_pos hl
  rcases h1 with p | p | p | p | p
  · left; simp [cyclesToIdle, p]
  · right; left
    refine ⟨p, ?_⟩
    simp only [cyclesToIdle, p, if_true]
    omega
  · right; right; left
    have := h3 (.inl p)
    exact ⟨p, by simp [cyclesToIdle, p, Nat.add_mul], by simp [cyclesToIdle, p, Nat.add_mul]; omega⟩
  · right; right; right; left
    have := h3 (.inr p)
    exact ⟨p, by simp [cyclesToIdle, p], by simp [cyclesToIdle, p, Nat.add_mul]; omega⟩
  · right; right; right; right
    have := h4 p
    refine ⟨p, ?_, ?_⟩
    · simp [cyclesToIdle, p]
    · simp [cyclesToIdle, p]; omega

end Sys2Proof.Machine
end

