-- ==== Sys2Proof/Tests/Slice0.lean ====
section
/-! SUPPORT. Tests with results taken from the spec's worked examples and derived vectors (95_test_vectors; each is named),
and a witness for the hypotheses of every statement. -/

namespace Sys2Proof.Tests

open Sys2Proof Sys2Proof.Machine

/-! ### Helpers -/

/-- A state at the default parameters, after an acceptance, with the words `ws` on the coming edges. -/
def st (p : PhaseCode) (cnt : Nat) (idx : BitIndex) (F : FrameWord) (inv : Bool) (ws : List HostWord) : State :=
  { cfg := Config.default false, phase := p, cnt := cnt, idx := idx, F := F, INV := inv, pins := 0#27, host := ws, edges := 0,
    history := .sinceAcceptance, funcOut := .none }

/-- Every `st` meets the two premises that most statements share. -/
theorem st_legal_resetOccurred (p : PhaseCode) (cnt : Nat) (idx : BitIndex) (F : FrameWord) (inv : Bool) (ws : List HostWord) :
    (st p cnt idx F inv ws).cfg.legal = true ∧ resetOccurred (st p cnt idx F inv ws) :=
  ⟨show (Config.default false).legal = true by decide, by simp [st]⟩

/-- The smallest legal configuration: a frame is busy for 66 cycles. -/
def tiny : Config := { nPre := 1, nHalf := 1, nGap := 1, cntW := 1, tTick := 1000, invert := false }

/-- `st` in the smallest configuration. -/
def tinySt (p : PhaseCode) (cnt : Nat) (idx : BitIndex) (F : FrameWord) (ws : List HostWord) : State :=
  { st p cnt idx F false ws with cfg := tiny }

/-- The registers of a next state: `phase, cnt, idx, F, INV`. -/
def regs (o : Host.Outcome State Fault Refusal) : Option (PhaseCode × Nat × BitIndex × FrameWord × Bool) :=
  match o with
  | .next t => some (t.phase, t.cnt, t.idx, t.F, t.INV)
  | .fault _ => none
  | .refused _ => none

/-- What a pure function answered. -/
def answer (o : Host.Outcome State Fault Refusal) : Option FuncOut :=
  match o with
  | .next t => some t.funcOut
  | .fault _ => none
  | .refused _ => none

/-! ### WellFormed: one ill-formed term for each check (30_encoding R84; 00_scope R7) -/

theorem test_csum_has_no_word : (Instr.csum 0x000001#24).wellFormed = false := by decide
theorem test_frame_has_no_word : (Instr.frame 0x000001#24).wellFormed = false := by decide
theorem test_nPre_zero_is_illegal : { Config.default false with nPre := 0 }.legal = false := by decide
theorem test_nHalf_zero_is_illegal : { Config.default false with nHalf := 0 }.legal = false := by decide
theorem test_nGap_zero_is_illegal : { Config.default false with nGap := 0 }.legal = false := by decide
theorem test_nPre_too_wide_is_illegal : { Config.default false with nPre := 4097 }.legal = false := by decide
theorem test_nHalf_too_wide_is_illegal : { Config.default false with nHalf := 4097 }.legal = false := by decide
theorem test_nGap_too_wide_is_illegal : { Config.default false with nGap := 4097 }.legal = false := by decide
theorem test_widest_phase_is_legal : { Config.default false with nGap := 4096 }.legal = true := by decide

/-! ### Decode: words written from 30_encoding R70, R71, R80 -/

-- HCW = 1_1_0_0000...: cfg_invert, rst
theorem test_decode_reset : decodeTableWord 32 0b110000000000000000000000000 = some (.reset true false 0#24) := by decide
-- V-H3: RESET 0 with req = 1 and opcode 1
theorem test_decode_reset_ignores_req : decodeTableWord 32 0x3000001 = some (.reset false true 1#24) := by decide
-- V-H6: HCW = 0_0_1_0001 0010 0011 0100 0101 0110
theorem test_decode_send : decodeTableWord 32 0b001000100100011010001010110 = some (.send false 0x123456#24) := by decide
theorem test_decode_send_all_opcode_bits : decodeTableWord 32 0x5FFFFFF = some (.send true 0xFFFFFF#24) := by decide
-- V-H8: NOP with cfg_invert = 1
theorem test_decode_nop : decodeTableWord 32 0x4000000 = some (.nop true 0#24) := by decide
theorem test_decode_idle : decodeTableWord 8 0b000 = some .idle := by decide
theorem test_decode_pre : decodeTableWord 8 0b001 = some .pre := by decide
theorem test_decode_h1 : decodeTableWord 8 0b010 = some .h1 := by decide
theorem test_decode_h2 : decodeTableWord 8 0b011 = some .h2 := by decide
theorem test_decode_gap : decodeTableWord 8 0b100 = some .gap := by decide
theorem test_decode_rsvd101 : decodeTableWord 8 0b101 = some .phaseRsvd101 := by decide
theorem test_decode_rsvd110 : decodeTableWord 8 0b110 = some .phaseRsvd110 := by decide
theorem test_decode_rsvd111 : decodeTableWord 8 0b111 = some .phaseRsvd111 := by decide
-- bit 27 is no bit of HCW, bit 3 none of the phase code, and a FUNC row has no word
theorem test_decode_refuses_bit_27 : decodeTableWord 32 0x8000000 = none := by decide
theorem test_decode_refuses_bit_3 : decodeTableWord 8 0b1000 = none := by decide
theorem test_decode_refuses_no_bits : decodeTableWord 0 0 = none := by decide
-- 30_encoding R83's own words
theorem test_asm_words : (asmRESET true, asmSEND 0x000003#24, asmNOP) = (0x6000000#27, 0x1000003#27, 0x0000000#27) := by
  decide

/-! ### CSUM and FRAME (95_test_vectors §2.1) -/

-- V-F20, V-F21
theorem test_csum_mixed : answer (exec (.csum 0x123456#24) State.reset) = some (.csum 0x7#4) := by decide
theorem test_csum_cancels : answer (exec (.csum 0x0F0F0F#24) State.reset) = some (.csum 0x0#4) := by decide
-- V-F12 (bit 18 reaches the top byte), V-F10 (bit 19 reaches the checksum only)
theorem test_frame_bit_18 : answer (exec (.frame 0x040000#24) State.reset) = some (.frame 0xFF000004#32) := by decide
theorem test_frame_bit_19 : answer (exec (.frame 0x080000#24) State.reset) = some (.frame 0xFE000008#32) := by decide

/-! ### Host operations (95_test_vectors §2.2) -/

-- V-H2
theorem test_reset_aborts : regs (step (st phaseH1 17 9#5 0xFE000044#32 false [0x6000000#27])) =
    some (0#3, 0, 0#5, 0x00000000#32, true) := by decide
-- V-H3
theorem test_reset_drops_the_request : regs (step (st phaseIDLE 0 0#5 0#32 false [0x3000001#27])) =
    some (0#3, 0, 0#5, 0x00000000#32, false) := by decide
-- V-H5
theorem test_send_accepts : regs (step (st phaseIDLE 0 0#5 0xFE000044#32 true [0x1040000#27])) =
    some (1#3, 499, 31#5, 0xFF000004#32, true) := by decide
-- V-H6
theorem test_send_while_busy : regs (step (st phaseH2 100 4#5 0xFE000044#32 false [0x1123456#27])) =
    some (3#3, 99, 4#5, 0xFE000044#32, false) := by decide
-- V-H8
theorem test_nop_ignores_the_strap : regs (step (st phaseIDLE 0 0#5 0#32 false [0x4000000#27])) =
    some (0#3, 0, 0#5, 0x00000000#32, false) := by decide
-- 41_host_operations R125's worked example
theorem test_nop_in_pre : regs (step (st phasePRE 0 31#5 0xFE000044#32 false [0x0000000#27])) =
    some (2#3, 249, 31#5, 0xFE000044#32, false) := by decide

/-! ### Sequencer steps (95_test_vectors §2.3) -/

-- V-H7
theorem test_idle_waits : regs (step (st phaseIDLE 0 0#5 0xFE000044#32 false [0x0000000#27])) =
    some (0#3, 0, 0#5, 0xFE000044#32, false) := by decide
-- V-H4, as the IDLE step with the request on the pins
theorem test_idle_accepts : regs (exec .idle { st phaseIDLE 0 0#5 0#32 false [] with pins := 0x1000001#27 }) =
    some (1#3, 499, 31#5, 0xFE000044#32, false) := by decide
-- V-S1, V-S2
theorem test_pre_counts : regs (exec .pre (st phasePRE 5 31#5 0xFE000044#32 false [])) =
    some (1#3, 4, 31#5, 0xFE000044#32, false) := by decide
theorem test_pre_ends : regs (step (st phasePRE 0 31#5 0xFE000044#32 false [0x1000000#27])) =
    some (2#3, 249, 31#5, 0xFE000044#32, false) := by decide
-- V-S3, V-S5
theorem test_h1_ends : regs (exec .h1 (st phaseH1 0 17#5 0xFE000044#32 false [])) =
    some (3#3, 249, 17#5, 0xFE000044#32, false) := by decide
theorem test_h1_counts : regs (exec .h1 (st phaseH1 3 6#5 0xFE000044#32 false [])) =
    some (2#3, 2, 6#5, 0xFE000044#32, false) := by decide
-- V-S4, V-S6
theorem test_h2_next_bit : regs (exec .h2 (st phaseH2 0 17#5 0xFE000044#32 false [])) =
    some (2#3, 249, 16#5, 0xFE000044#32, false) := by decide
theorem test_h2_last_bit : regs (exec .h2 (st phaseH2 0 0#5 0xFE000044#32 false [])) =
    some (4#3, 3299, 0#5, 0xFE000044#32, false) := by decide
-- V-S7, V-S8
theorem test_gap_counts : regs (step (st phaseGAP 1 0#5 0xFE000044#32 false [0x1000000#27])) =
    some (4#3, 0, 0#5, 0xFE000044#32, false) := by decide
theorem test_gap_ends_without_acceptance : regs (step (st phaseGAP 0 0#5 0xFE000044#32 false [0x1000000#27])) =
    some (0#3, 0, 0#5, 0xFE000044#32, false) := by decide
-- V-S9, and 42_line_sequencer R146 for the other two codes
theorem test_rsvd110 : regs (step (st 0b110#3 7 3#5 0x12345678#32 false [0x1000000#27])) =
    some (0#3, 0, 3#5, 0x12345678#32, false) := by decide
theorem test_rsvd101 : regs (exec .phaseRsvd101 (st 0b101#3 7 3#5 0x12345678#32 true [])) =
    some (0#3, 0, 3#5, 0x12345678#32, true) := by decide
theorem test_rsvd111 : regs (exec .phaseRsvd111 (st 0b111#3 7 3#5 0x12345678#32 false [])) =
    some (0#3, 0, 3#5, 0x12345678#32, false) := by decide

/-! ### Outputs (95_test_vectors §2.3, the `line` column) -/

-- V-S3, V-S4, V-S5, V-S6
theorem test_line_h1_zero_bit : (st phaseH1 0 17#5 0xFE000044#32 false []).line = false := by decide
theorem test_line_h2_zero_bit : (st phaseH2 0 17#5 0xFE000044#32 false []).line = true := by decide
theorem test_line_h1_one_bit : (st phaseH1 3 6#5 0xFE000044#32 false []).line = true := by decide
-- V-S11, V-S12
theorem test_line_inverted : (st phaseH1 0 31#5 0xFE000000#32 true []).line = false := by decide
theorem test_line_idle_inverted : (st phaseIDLE 0 0#5 0#32 true []).line = true := by decide
-- 60_exceptions R182: equal levels join, each with its length
theorem test_level_runs : levelRuns [true, true, false, true] = [(true, 2), (false, 1), (true, 1)] := by decide
-- 95_test_vectors V-S10: half-period 0 (bit 31), 14 (bit 24) and the gap of FRAME(0), at N_PRE = 2, N_HALF = 1, N_GAP = 3
theorem test_frame_level :
    (frameLevel { tiny with nPre := 2, nGap := 3 } 0xFE000000#32 3, frameLevel { tiny with nPre := 2, nGap := 3 } 0xFE000000#32 17,
      frameLevel { tiny with nPre := 2, nGap := 3 } 0xFE000000#32 67) = (true, false, false) := by decide

/-! ### The first step after reset runs every table row that has a word -/

theorem test_first_step_runs :
    ([(32, 0x2000000), (32, 0x1000000), (32, 0x0000000), (8, 0), (8, 1), (8, 2), (8, 3), (8, 4), (8, 5), (8, 6), (8, 7)].all
      fun p => (decodeTableWord p.1 p.2).isSome && (regs (step (State.reset.withFetchWord p.1 p.2))).isSome) = true := by
  decide

/-! ### Witnesses: each meets all the hypotheses of the statement it is named after -/

theorem witness_EveryHostWordIsExactlyOneOperation :
    0x7FFFFFF#27 &&& 0x2000000#27 = 0x2000000#27 ∧ 0x5FFFFFF#27 &&& 0x3000000#27 = 0x1000000#27 ∧
    0x4FFFFFF#27 &&& 0x3000000#27 = 0x0000000#27 := by decide

theorem witness_DecodeAndEncodeAgree :
    (Instr.reset true true 0xFFFFFF#24).wellFormed = true ∧ Instr.phaseRsvd111.wellFormed = true ∧
    (Instr.csum 0#24).wellFormed = false := by decide

theorem witness_PureFunctionsAnswerAndWriteNoRegister : resetOccurred State.reset := by decide

theorem witness_CsumIsTheXorOfSixWindows :
    (0xC00000#24).extractLsb 21 0 = (0x000000#24).extractLsb 21 0 ∧
    (0x000003#24).extractLsb 21 2 = (0x000000#24).extractLsb 21 2 := by decide

theorem witness_CsumIsLinear : 1 ≤ 1 ∧ (2 ≤ 21 ∧ 21 ≤ 21) ∧ (22 ≤ 23 ∧ 23 ≤ 23) ∧ (2 ≤ 17 ∧ 17 + 4 ≤ 21) := by decide

theorem witness_FrameFollowsTheFormula :
    (0xF80000#24).extractLsb 18 0 = (0x000000#24).extractLsb 18 0 := by decide

theorem witness_FrameBitsAndInjectivity :
    (0xFBFFFF#24).getLsbD 18 = false ∧ (0x040000#24).getLsbD 18 = true ∧
    (0x400000#24).extractLsb 18 0 = (0#24).extractLsb 18 0 ∧ csum 0x400000#24 = csum 0#24 := by decide

theorem witness_ResetGivesTheResetState : (st phaseH2 7 3#5 0x12345678#32 true []).cfg.legal = true := by decide

theorem witness_SendIsAcceptedOnlyInIdle :
    (st phaseIDLE 0 0#5 0#32 false []).cfg.legal = true ∧ resetOccurred (st phaseIDLE 0 0#5 0#32 false []) ∧
    (st phaseIDLE 0 0#5 0#32 false []).phase = 0b000#3 ∧
    (st phaseGAP 0 0#5 0#32 false []).cfg.legal = true ∧ resetOccurred (st phaseGAP 0 0#5 0#32 false []) ∧
    (st phaseGAP 0 0#5 0#32 false []).phase ≠ 0b000#3 := by decide

theorem witness_HostSeesTheAcceptance :
    let s := st phaseIDLE 0 0#5 0#32 false [0x1000001#27]
    s.cfg.legal = true ∧ resetOccurred s ∧ s.ready = true ∧ hcwRst s.nextWord = false ∧
    hcwReq s.nextWord = true := by decide

theorem witness_NopRunsThePhaseStep :
    (st phaseIDLE 0 0#5 0#32 false []).cfg.legal = true ∧ resetOccurred (st phaseIDLE 0 0#5 0#32 false []) ∧
    (st phaseIDLE 0 0#5 0#32 false []).phase = 0b000#3 ∧
    (st phasePRE 0 31#5 0#32 false []).phase ≠ 0b000#3 ∧ 5 ≤ (st 0b101#3 0 0#5 0#32 false []).phase.toNat := by decide

theorem witness_IdleWaitsOrAccepts :
    let s := st phaseIDLE 0 0#5 0#32 false []
    let s' := { s with pins := 0x1000001#27 }
    s.cfg.legal = true ∧ resetOccurred s ∧ s.phase = 0b000#3 ∧ s.req = false ∧ s'.cfg.legal = true ∧
    resetOccurred s' ∧ s'.phase = 0b000#3 ∧ s'.req = true := by
  decide

theorem witness_PreCountsThenEntersH1 :
    let s := st phasePRE 1 31#5 0#32 false []
    let s' := st phasePRE 0 31#5 0#32 false []
    s.cfg.legal = true ∧ resetOccurred s ∧ s.phase = 0b001#3 ∧ s.cnt ≠ 0 ∧ s'.cfg.legal = true ∧ resetOccurred s' ∧
    s'.phase = 0b001#3 ∧ s'.cnt = 0 := by decide

theorem witness_H1CountsThenEntersH2 :
    let s := st phaseH1 1 31#5 0#32 false []
    let s' := st phaseH1 0 0#5 0#32 false []
    s.cfg.legal = true ∧ resetOccurred s ∧ s.phase = 0b010#3 ∧ s.cnt ≠ 0 ∧ s'.cfg.legal = true ∧ resetOccurred s' ∧
    s'.phase = 0b010#3 ∧ s'.cnt = 0 := by decide

theorem witness_H2CountsThenNextBitOrGap :
    let s := st phaseH2 1 31#5 0#32 false []
    let s' := st phaseH2 0 1#5 0#32 false []
    let s'' := st phaseH2 0 0#5 0#32 false []
    s.cfg.legal = true ∧ resetOccurred s ∧ s.phase = 0b011#3 ∧ s.cnt ≠ 0 ∧
    s'.cfg.legal = true ∧ resetOccurred s' ∧ s'.phase = 0b011#3 ∧ s'.cnt = 0 ∧ s'.idx ≠ 0#5 ∧
    s''.cfg.legal = true ∧ resetOccurred s'' ∧ s''.phase = 0b011#3 ∧ s''.cnt = 0 ∧ s''.idx = 0#5 := by decide

theorem witness_GapCountsThenIdlesAndKeepsFramesApart_step :
    let s := st phaseGAP 1 0#5 0#32 false []
    let s' := st phaseGAP 0 0#5 0#32 false [0x1000001#27, 0x1000002#27]
    s.cfg.legal = true ∧ resetOccurred s ∧ s.phase = 0b100#3 ∧ s.cnt ≠ 0 ∧ s'.cfg.legal = true ∧ resetOccurred s' ∧
    s'.phase = 0b100#3 ∧ s'.cnt = 0 ∧
    noResetFor 2 s' ∧ hcwReq (s'.wordAt 1) = true := by unfold noResetFor; decide

theorem witness_ReservedPhasesReturnToIdle :
    let s := st 0b110#3 7 3#5 0#32 false [0x1000001#27]
    s.cfg.legal = true ∧ s.phase = 0b110#3 ∧ 5 ≤ s.phase.toNat ∧ hcwRst s.nextWord = false ∧
    (st 0b101#3 7 3#5 0#32 false []).phase = 0b101#3 ∧ (st 0b111#3 7 3#5 0#32 false []).phase = 0b111#3 := by decide

/-- A reachable state (for `ReservedPhasesReturnToIdle` and `ReachableStatesKeepTheInvariants`). -/
theorem witness_ReachableStatesKeepTheInvariants :
    Reachable { st phaseIDLE 0 0#5 0#32 true [] with pins := 0x6000000#27, edges := 1, history := .sinceReset } :=
  .afterReset (st 0b111#3 9 9#5 0x12345678#32 false [0x6000000#27]) _ (by decide) rfl

theorem witness_OutputsFollowTheRegisters :
    resetOccurred (st phasePRE 0 31#5 0#32 false []) ∧ (st phasePRE 0 31#5 0#32 false []).phase = 0b001#3 ∧
    (st phaseH1 0 31#5 0#32 false []).phase = 0b010#3 ∧
    (st phaseH2 0 31#5 0#32 false []).phase = 0b011#3 ∧ (st phaseGAP 0 0#5 0#32 false []).phase = 0b100#3 := by decide

theorem witness_StepRunsTheDecodedInstruction :
    let s := st phaseIDLE 0 0#5 0#32 false [0x1000001#27]
    edgeClaimed s ∧ s.host = 0x1000001#27 :: [] := by decide

theorem witness_StepRunsTheEncodedInstruction :
    let s := st phaseH2 3 4#5 0#32 false [0x1000001#27]
    edgeClaimed s ∧ encode (.send false 0x000001#24) = some (.hostWord s.nextWord) ∧ encode .h2 = some (.phaseCode s.phase) ∧
    hcwRst s.nextWord = false := by decide

theorem witness_EdgePriorityResetThenAcceptThenPhase :
    let s := st phaseIDLE 0 0#5 0#32 false [0x3000001#27]
    let s' := st phaseIDLE 0 0#5 0#32 false [0x1000001#27]
    s.cfg.legal = true ∧ resetOccurred s ∧ hcwRst s.nextWord = true ∧ s'.cfg.legal = true ∧ resetOccurred s' ∧
    hcwRst s'.nextWord = false ∧
    hcwReq s'.nextWord = true ∧ s'.phase = 0b000#3 := by decide

theorem witness_IllegalConfigurationIsRefused :
    { st phaseIDLE 0 0#5 0#32 false [] with cfg := { tiny with nGap := 3 } }.cfg.legal = false ∧
    Instr.gap.wellFormed = true := by decide

theorem witness_LegalMachineNeverStops :
    let s := st 0b100#3 0 0#5 0xFE000044#32 false []
    s.cfg.legal = true ∧ resetOccurred s := by decide

theorem witness_FetchWordRunsTheTableRow :
    0x7FFFFFF < 2 ^ 27 ∧ edgeClaimed (State.reset.withFetchWord 32 0x7FFFFFF) ∧
    4 < 2 ^ 3 ∧ edgeClaimed (State.reset.withFetchWord 8 4) := by decide

/-- The last cycle of the last half-period of the frame of opcode 1: a state that meets the invariant. -/
theorem safe_lastHalf (ws : List HostWord) : SafeState (tinySt phaseH2 0 0#5 0xFE000044#32 ws) where
  legal := show tiny.legal = true by decide
  resetSeen := by simp [tinySt, st]
  inv :=
    { phaseLegal := .inr (.inr (.inr (.inl rfl)))
      preOk := by simp [tinySt, st]
      halfOk := fun _ => le_refl _
      gapOk := by simp [tinySt, st]
      frameOk := ⟨.inr ⟨0x000001#24, rfl⟩, fun _ => show (0xFE000044#32).extractLsb' 25 7 = 0b1111111#7 ∧
    (0xFE000044#32).extractLsb' 0 2 = 0b00#2 by decide⟩
      noFrameYet := by simp [tinySt, st] }
  cntWidth := by simp [tinySt, st]
  idleOk := by simp [tinySt, st]
  busyFrame := fun _ => ⟨0x000001#24, rfl⟩
  idleSinceReset := by simp [tinySt, st]

/-- A state that `safe_lastHalf` covers takes a step. -/
theorem witness_EveryStepKeepsSafety :
    let s := tinySt phaseH2 0 0#5 0xFE000044#32 [0x0000000#27]
    SafeState s ∧ step s = .next { s with phase := phaseGAP, pins := 0#27, host := [], edges := 1 } :=
  ⟨safe_lastHalf _, rfl⟩

theorem witness_OneResetEdgeReachesSafety :
    let s := st 0b111#3 9 9#5 0x12345678#32 false [0x6000000#27]
    s.cfg.legal = true ∧ hcwRst s.nextWord = true := by decide

theorem witness_NoEdgeLeadsToAReservedPhase :
    let s := { st 0b111#3 9 9#5 0x12345678#32 false [0x0000000#27] with history := .beforeReset }
    let s' := { st phaseH2 9 9#5 0x12345678#32 false [0x2000000#27] with history := .beforeReset }
    let s'' := st phaseGAP 0 0#5 0xFE000044#32 false [0x0000000#27]
    edgeClaimed s ∧ (regs (step s)).isSome = true ∧ edgeClaimed s' ∧ (regs (step s')).isSome = true ∧
    edgeClaimed s'' ∧ (regs (step s'')).isSome = true := by decide

theorem witness_ObservationStartsAtTheFirstResetEdge :
    let s := { st 0b111#3 9 9#5 0x12345678#32 false [0x0000000#27] with history := .beforeReset }
    let s' := { st 0b111#3 9 9#5 0x12345678#32 false [0x2000000#27] with history := .beforeReset }
    ¬ resetOccurred s ∧ hcwRst s.nextWord = false ∧ (regs (step s)).isSome = true ∧
    hcwRst s'.nextWord = true ∧ (regs (step s')).isSome = true ∧
    resetOccurred (st phaseH1 1 9#5 0#32 false []) := by decide

theorem witness_OnlyResetWritesThePolarity :
    (regs (step (st phaseIDLE 0 0#5 0#32 false [0x6000000#27]))).isSome = true ∧
    (regs (step (st phaseIDLE 0 0#5 0#32 false [0x4000000#27]))).isSome = true ∧
    resetOccurred (st phaseIDLE 0 0#5 0#32 false [0x4000000#27]) ∧ resetOccurred (st phasePRE 0 31#5 0#32 true []) ∧
    (st phasePRE 0 31#5 0#32 true []).lvl = MARK := by decide

/-- The host presents `INVERT` (here 0) at a reset edge, and whatever it likes at the edges that do not reset. -/
theorem witness_LineHasTheDeploymentsPolarity :
    let s := st 0b111#3 9 9#5 0x12345678#32 true [0x2000000#27]
    let s' := st phaseIDLE 0 0#5 0#32 false [0x5000001#27, 0x2000000#27]
    s.cfg.legal = true ∧ hcwRst s.nextWord = true ∧ presentsPolarityFor 1 s ∧
    s'.cfg.legal = true ∧ resetOccurred s' ∧ s'.INV = s'.cfg.invert ∧ presentsPolarityFor 2 s' := by
  unfold presentsPolarityFor; decide

theorem witness_OnlyResetAndAcceptanceWriteTheFrame :
    let s := st phaseIDLE 0 0#5 0#32 false [0x1000001#27]
    resetOccurred s ∧ hcwRst s.nextWord = false ∧ s.phase = 0b000#3 ∧ hcwReq s.nextWord = true ∧
    (regs (step s)).isSome = true ∧
    (st phaseGAP 0 0#5 0#32 false [0x1000001#27]).phase ≠ 0b000#3 := by decide

theorem witness_PositionAndRequestFixTheNextPosition :
    let s := st phaseIDLE 0 0#5 0#32 false [0x1000001#27]
    let s' := st phaseIDLE 0 0#5 0x12345678#32 true [0x1000002#27]
    resetOccurred s ∧ resetOccurred s' ∧ s.cfg = s'.cfg ∧ s.phase = s'.phase ∧ s.idx = s'.idx ∧ s.cnt = s'.cnt ∧
    hcwRst s.nextWord = hcwRst s'.nextWord ∧ hcwReq s.nextWord = hcwReq s'.nextWord ∧
    (regs (step s)).isSome = true ∧ (regs (step s')).isSome = true := by decide

theorem witness_OnlyResetEndsAFrameEarly :
    resetOccurred (st phaseH1 17 9#5 0#32 false [0x6000000#27]) ∧
    (st phaseH1 17 9#5 0#32 false [0x6000000#27]).phase = 0b010#3 ∧
    regs (step (st phaseH1 17 9#5 0#32 false [0x6000000#27])) = some (0b000#3, 0, 0#5, 0#32, true) ∧
    resetOccurred (st phaseGAP 0 0#5 0#32 false [0x0000000#27]) ∧
    (st phaseGAP 0 0#5 0#32 false [0x0000000#27]).phase = 0b100#3 ∧
    regs (step (st phaseGAP 0 0#5 0#32 false [0x0000000#27])) = some (0b000#3, 0, 0#5, 0#32, false) :=
  ⟨by decide, rfl, by decide, by decide, rfl, by decide⟩

/-- Two states that differ in the coming inputs only, with both of the frame's last two cycles to come. -/
theorem witness_FrameInProgressIgnoresTheInputs :
    let s := tinySt phaseH2 0 0#5 0xFE000044#32 [0x0000000#27, 0x0000000#27]
    let s' := tinySt phaseH2 0 0#5 0xFE000044#32 [0x5FFFFFF#27, 0x1000001#27]
    SafeState s ∧ SafeState s' ∧ s.cfg = s'.cfg ∧ sameRegisters s s' ∧ 2 ≤ cyclesToIdle s ∧ noResetFor 2 s ∧
    noResetFor 2 s' :=
  ⟨safe_lastHalf _, safe_lastHalf _, rfl, ⟨rfl, rfl, rfl, rfl, rfl⟩, by decide, by unfold noResetFor; decide,
    by unfold noResetFor; decide⟩

theorem witness_IdleWithoutRequestStaysAtSpace :
    let s := st phaseIDLE 0 0#5 0xFE000044#32 true [0x0000001#27, 0x4000002#27]
    s.cfg.legal = true ∧ resetOccurred s ∧ s.phase = 0b000#3 ∧ noResetFor 2 s ∧
    (∀ j, j < 2 → hcwReq (s.wordAt j) = false) := by
  unfold noResetFor; decide

theorem witness_FirstEdgeAfterResetCanAccept :
    let s := st phaseH1 17 9#5 0#32 false [0x2000000#27, 0x1000001#27]
    s.cfg.legal = true ∧ hcwRst s.nextWord = true ∧ hcwRst (s.wordAt 1) = false ∧
    hcwReq (s.wordAt 1) = true := by decide

theorem witness_CyclesToIdleCountDown :
    let s := tinySt phaseH2 0 0#5 0xFE000044#32 [0x1000000#27]
    SafeState s ∧ hcwRst s.nextWord = false ∧ (regs (step s)).isSome = true ∧ s.phase ≠ 0b000#3 :=
  ⟨safe_lastHalf _, by decide, by decide, by decide⟩

/-- A host that holds its request for a whole frame and the edge after: first and last cycle, and the second acceptance. -/
theorem witness_AcceptedFrameTiming :
    let s := tinySt phaseIDLE 0 0#5 0#32 (List.replicate 68 0x1000001#27)
    s.cfg.legal = true ∧ resetOccurred s ∧ s.phase = 0b000#3 ∧ hcwReq s.nextWord = true ∧ 67 ≤ busyCycles s.cfg + 1 ∧
    noResetFor (busyCycles s.cfg + 2) s ∧ hcwReq (s.wordAt (busyCycles s.cfg + 1)) = true := by
  unfold noResetFor; decide

theorem witness_AcceptedFrameWaveform :
    let s := tinySt phaseIDLE 0 0#5 0#32 (List.replicate 67 0x1000001#27)
    s.cfg.legal = true ∧ resetOccurred s ∧ s.phase = 0b000#3 ∧ hcwReq s.nextWord = true ∧ 1 ≤ 67 ∧
    67 ≤ busyCycles s.cfg + 1 ∧
    noResetFor 67 s := by
  unfold noResetFor; decide

theorem witness_FrameWaveformShape : tiny.legal = true ∧ (63 < 64 ∧ 0 < tiny.nHalf) ∧ 12 < 13 ∧ 31 < 32 ∧ 30 < 31 := by
  decide

theorem witness_HeldRequestIsTakenWithinAPeriod :
    let s := tinySt phaseH2 0 0#5 0xFE000044#32 (List.replicate 68 0x1000001#27)
    SafeState s ∧ noResetFor (framePeriod s.cfg + 1) s ∧ (∀ j, j ≤ framePeriod s.cfg → hcwReq (s.wordAt j) = true) :=
  ⟨safe_lastHalf _, by unfold noResetFor; decide, by decide⟩

theorem witness_GapCountsThenIdlesAndKeepsFramesApart :
    let s := tinySt phaseH2 0 0#5 0xFE000044#32 (List.replicate 3 0x1000001#27)
    SafeState s ∧ s.phase = 0b011#3 ∧ s.idx = 0#5 ∧ s.cnt = 0 ∧ noResetFor (s.cfg.nGap + 2) s ∧
    hcwReq (s.wordAt (s.cfg.nGap + 1)) = true :=
  ⟨safe_lastHalf _, rfl, rfl, rfl, by unfold noResetFor; decide, by decide⟩

end Sys2Proof.Tests
end

section
/-! SUPPORT. The proofs about the configuration and the polarity (spec 00_scope R6, R7). -/

namespace Sys2Proof

/-! ### Which configurations are legal (00_scope R7) -/

theorem durationLegal_iff {n w : Nat} : durationLegal n w = true ↔ 1 ≤ n ∧ n - 1 < 2 ^ w := by
  simp only [durationLegal, Bool.and_eq_true, decide_eq_true_eq]

theorem Config.legal_iff {c : Config} :
    c.legal = true ↔
      (1 ≤ c.nPre ∧ 1 ≤ c.nHalf ∧ 1 ≤ c.nGap) ∧
      (c.nPre - 1 < 2 ^ c.cntW ∧ c.nHalf - 1 < 2 ^ c.cntW ∧ c.nGap - 1 < 2 ^ c.cntW) := by
  simp only [Config.legal, Bool.and_eq_true, durationLegal_iff]
  constructor
  · rintro ⟨⟨⟨hPre, hPreFits⟩, hHalf, hHalfFits⟩, hGap, hGapFits⟩
    exact ⟨⟨hPre, hHalf, hGap⟩, hPreFits, hHalfFits, hGapFits⟩
  · rintro ⟨⟨hPre, hHalf, hGap⟩, hPreFits, hHalfFits, hGapFits⟩
    exact ⟨⟨⟨hPre, hPreFits⟩, hHalf, hHalfFits⟩, hGap, hGapFits⟩

end Sys2Proof

namespace Sys2Proof.Machine

/-! ### An illegal configuration -/

theorem step_of_not_legal {s : State} (h : s.cfg.legal = false) : step s = .refused .illegalConfiguration := by
  rw [step_eq, clocked_of_not_legal h]

/-- Every instruction that has a word is clocked; the `FUNC` rows are not, and no configuration matters to them. -/
theorem exec_of_not_legal {i : Instr} {s : State} (hi : i.wellFormed = true) (h : s.cfg.legal = false) :
    exec i s = .refused .illegalConfiguration := by
  cases i with
  | csum | frame => cases hi
  | _ => exact clocked_of_not_legal h

/-- Settles O25: legality is read off `Config.legal_iff`, and every clocked operation goes through `clocked`. -/
theorem illegalConfigurationIsRefused : Obligations.IllegalConfigurationIsRefused := by
  refine ⟨fun _ => Config.legal_iff, fun s h => ?refused, fun inv => ?defaults⟩
  case refused => exact ⟨step_of_not_legal h, fun i hi => exec_of_not_legal hi h⟩
  case defaults =>
    exact ⟨Config.legal_iff.mpr (by simp [Config.default]), by simp [Config.default]⟩

/-! ### The polarity under the host's duty (41_host_operations R126) -/

/-- The host's duty after the coming edge is what is left of its duty now. -/
theorem presentsPolarityFor_edgeResult {k : Nat} {s : State} (h : presentsPolarityFor (k + 1) s) :
    presentsPolarityFor k (edgeResult s) := by
  intro j hj
  rw [wordAt_edgeResult, edgeResult_cfg]
  exact h (j + 1) (by omega)

/-- An edge at which the host does its duty leaves `INV` at `INVERT`: it latches it at a reset edge, and else keeps it. -/
theorem edgeResult_INV_of_presentsPolarityFor {k : Nat} {s : State} (h : presentsPolarityFor (k + 1) s)
    (hinv : hcwRst s.nextWord = false → s.INV = s.cfg.invert) : (edgeResult s).INV = s.cfg.invert := by
  rw [edgeResult_INV]
  cases hr : hcwRst s.nextWord
  · exact hinv hr
  · exact h 0 (by omega) hr

/-- While the host does its duty, a run answers and keeps `INV` at `INVERT`. -/
theorem run_keeps_polarity (k : Nat) (s : State) (hl : s.cfg.legal = true) (hro : resetOccurred s)
    (hinv : s.INV = s.cfg.invert) (h : presentsPolarityFor k s) :
    ∃ t, run k s = .next t ∧ resetOccurred t ∧ t.INV = s.cfg.invert := by
  induction k generalizing s with
  | zero => exact ⟨s, run_zero s, hro, hinv⟩
  | succ k ih =>
    have hcfg := edgeResult_cfg s
    have hinv' := edgeResult_INV_of_presentsPolarityFor h fun _ => hinv
    rw [run_succ_of_step (step_of_legal hl), ← hcfg]
    exact ih (edgeResult s) (hcfg ▸ hl) ((edgeResult_resetOccurred s).mpr (.inr hro)) (hcfg ▸ hinv')
      (presentsPolarityFor_edgeResult h)

/-- Once a reset edge has occurred, the line shown is the logical level in the polarity of `INV` (42_line_sequencer R148). -/
theorem observe_line_of_resetOccurred {s : State} (h : resetOccurred s) :
    s.observe.line = Bool.xor s.lvl s.INV := by
  rw [observe_of_resetOccurred h]; rfl

/-- Settles O47: the reset edge latches `INVERT` whatever `INV` was, and by induction on the run no later edge changes it. -/
theorem lineHasTheDeploymentsPolarity : Obligations.LineHasTheDeploymentsPolarity := by
  refine ⟨fun s hl hrst h => ?resetEdge, fun k s hl hro hinv h => ?furtherEdges⟩
  case resetEdge =>
    have hinv := edgeResult_INV_of_presentsPolarityFor h fun hr => by simp [hrst] at hr
    exact ⟨edgeResult s, step_of_legal hl, (edgeResult_resetOccurred s).mpr (.inl hrst), edgeResult_cfg s, hinv⟩
  case furtherEdges =>
    obtain ⟨t, hrun, hrot, hinvt⟩ := run_keeps_polarity k s hl hro hinv h
    exact ⟨t, hrun, hinvt, hinvt ▸ observe_line_of_resetOccurred hrot⟩

end Sys2Proof.Machine
end

section
/-! SUPPORT. The proofs about the registers: what every edge keeps (spec 10_state R41), and what writes them (R32, R33). -/

namespace Sys2Proof.Machine

/-! ### The fixed bits of the frame register (10_state R41 (e)) -/

theorem frame_fixedBits (op : Opcode) :
    (frame op).extractLsb' 25 7 = 0b1111111#7 ∧ (frame op).extractLsb' 0 2 = 0b00#2 := by
  constructor
  · apply BitVec.eq_of_getLsbD_eq
    intro k hk
    have ones : (0b1111111#7).getLsbD k = true := by revert hk; revert k; decide
    rw [BitVec.getLsbD_extractLsb', frame_getLsbD op (25 + k) (by omega), ones]
    simp [hk]
  · apply BitVec.eq_of_getLsbD_eq
    intro k hk
    rw [BitVec.getLsbD_extractLsb', frame_getLsbD op (0 + k) (by omega)]
    simp [show ¬ 25 ≤ k by omega, show ¬ 6 ≤ k by omega, show ¬ 2 ≤ k by omega]

/-! ### The invariant, from what it rests on

The counter's bounds are those of `Timed`, and `PositionSettled` is what remains to be said of the position. Of the frame
there is one fact: once something was accepted, `F` holds a frame. -/

/-- Where the index stands still: it is 0 from the gap on, and in `IDLE` the counter is 0 too (10_state R30, R41 (d)). -/
structure PositionSettled (s : State) : Prop where
  gapIdx : s.phase = phaseGAP → s.idx = 0#5
  idleOk : s.phase = phaseIDLE → s.cnt = 0 ∧ s.idx = 0#5

theorem SafeState.positionSettled {s : State} (h : SafeState s) : PositionSettled s :=
  ⟨fun p => (h.inv.gapOk p).1, h.idleOk⟩

theorem PositionSettled.of_sending {s : State} (h : s.phase = phasePRE ∨ s.phase = phaseH1 ∨ s.phase = phaseH2) :
    PositionSettled s := by
  rcases h with p | p | p <;> constructor <;> simp [p]

/-- A legal configuration's reload values fit the counter, so its count does in every phase (00_scope R7). -/
theorem Timed.cnt_lt {s : State} (h : Timed s) (hp : PositionSettled s) : s.cnt < 2 ^ s.cfg.cntW := by
  obtain ⟨-, hPre, hHalf, hGap⟩ := Config.legal_iff.mp h.legal
  rcases h.phaseLegal with p | p | p | p | p
  · rw [(hp.idleOk p).1]; exact Nat.two_pow_pos _
  · exact (h.preOk p).2.trans_lt hPre
  · exact (h.halfOk (.inl p)).trans_lt hHalf
  · exact (h.halfOk (.inr p)).trans_lt hHalf
  · exact (h.gapOk p).trans_lt hGap

/-- Once something was accepted, the invariant is a matter of the position and of `F` holding a frame. -/
theorem SafeState.of_sinceAcceptance {s : State} (ht : Timed s) (hp : PositionSettled s)
    (hh : s.history = .sinceAcceptance) (hF : ∃ v, s.F = frame v) : SafeState s where
  legal := ht.legal
  resetSeen := by simp [hh]
  inv :=
    { phaseLegal := ht.phaseLegal
      preOk := ht.preOk
      halfOk := ht.halfOk
      gapOk := fun p => ⟨hp.gapIdx p, ht.gapOk p⟩
      frameOk := by
        obtain ⟨v, hv⟩ := hF
        exact ⟨.inr ⟨v, hv⟩, fun _ => hv ▸ frame_fixedBits v⟩
      noFrameYet := by simp [hh] }
  cntWidth := ht.cnt_lt hp
  idleOk := hp.idleOk
  busyFrame := fun _ => hF
  idleSinceReset := by simp [hh]

theorem SafeState.sinceAcceptance_of_busy {s : State} (h : SafeState s) (hb : s.phase ≠ phaseIDLE) :
    s.history = .sinceAcceptance := by
  cases hh : s.history with
  | beforeReset => exact absurd hh h.resetSeen
  | sinceReset => exact absurd (h.idleSinceReset hh) hb
  | sinceAcceptance => rfl

/-! ### What an edge does, by the word and the phase (42_line_sequencer R140) -/

theorem edgeResult_accept {s : State} (hr : hcwRst s.nextWord = false) (hp : s.phase = phaseIDLE)
    (hq : hcwReq s.nextWord = true) : edgeResult s = accept (hcwOpcode s.nextWord) s.sample := by
  rw [edgeResult_noReset hr, sequencerStep_idle (s := s.sample) hp, hq]; rfl

theorem edgeResult_wait {s : State} (hr : hcwRst s.nextWord = false) (hp : s.phase = phaseIDLE)
    (hq : hcwReq s.nextWord = false) : edgeResult s = s.sample := by
  rw [edgeResult_noReset hr, sequencerStep_idle (s := s.sample) hp, hq]; rfl

/-! ### Every edge keeps the invariant -/

theorem SafeState.sample {s : State} (h : SafeState s) : SafeState s.sample :=
  { h with
    inv := { h.inv with } }

/-- The reset values meet the invariant, whatever was before (10_state R39). -/
theorem safeState_resetTo {s : State} (h : s.cfg.legal = true) (inv : Bool) : SafeState (resetTo inv s) := by
  rw [resetTo_eq]
  exact
    { legal := h
      resetSeen := by simp
      inv :=
        { phaseLegal := .inl rfl
          preOk := by simp
          halfOk := by simp
          gapOk := by simp
          frameOk := ⟨.inl rfl, fun hF => absurd rfl hF⟩
          noFrameYet := fun _ _ => rfl }
      cntWidth := Nat.two_pow_pos _
      idleOk := fun _ => ⟨rfl, rfl⟩
      busyFrame := fun hb => absurd rfl hb
      idleSinceReset := fun _ => rfl }

/-- A reset edge leads every state of a legal configuration, the power-on states among them, into the invariant. -/
theorem safeState_edgeResult_of_reset {s : State} (hl : s.cfg.legal = true) (hr : hcwRst s.nextWord = true) :
    SafeState (edgeResult s) := by
  rw [edgeResult_reset hr]
  exact safeState_resetTo (s := s.sample) hl _

theorem accepted_of_resetOccurred {s : State} (h : resetOccurred s) : s.history.accepted = .sinceAcceptance := by
  cases hh : s.history with
  | beforeReset => exact absurd hh h
  | sinceReset | sinceAcceptance => rfl

theorem safeState_accept {s : State} (hl : s.cfg.legal = true) (hro : resetOccurred s) (op : Opcode) :
    SafeState (accept op s) :=
  .of_sinceAcceptance (.accept hl op) (.of_sending (.inl rfl)) (accepted_of_resetOccurred hro) ⟨op, rfl⟩

/-- Only an `H2` step at index 0 enters the gap and only a `GAP` step at count 0 enters `IDLE`, so both begin settled. -/
theorem SafeState.positionSettled_busyStep {s : State} (h : SafeState s) (hb : s.phase ≠ phaseIDLE) (req : Bool)
    (op : Opcode) : PositionSettled (sequencerStep req op s) := by
  rcases h.inv.phaseLegal with p | p | p | p | p
  · exact absurd p hb
  · rw [sequencerStep_pre p]
    rcases preStep_cases s with ⟨-, e⟩ | ⟨-, e⟩ <;> rw [e]
    · exact .of_sending (.inl p)
    · exact .of_sending (.inr (.inl rfl))
  · rw [sequencerStep_h1 p]
    rcases h1Step_cases s with ⟨-, e⟩ | ⟨-, e⟩ <;> rw [e]
    · exact .of_sending (.inr (.inl p))
    · exact .of_sending (.inr (.inr rfl))
  · rw [sequencerStep_h2 p]
    rcases h2Step_cases s with ⟨-, e⟩ | ⟨-, -, e⟩ | ⟨-, d, e⟩ <;> rw [e]
    · exact .of_sending (.inr (.inr p))
    · exact .of_sending (.inr (.inl rfl))
    · exact ⟨fun _ => d, by simp [enterPhase_eq]⟩
  · rw [sequencerStep_gap p]
    have hidx := (h.inv.gapOk p).1
    rcases gapStep_cases s with ⟨-, e⟩ | ⟨c, e⟩ <;> rw [e]
    · exact ⟨fun _ => hidx, by simp [countDown_eq, p]⟩
    · exact ⟨by simp, fun _ => ⟨c, hidx⟩⟩

theorem SafeState.busyStep {s : State} (h : SafeState s) (hb : s.phase ≠ phaseIDLE) (req : Bool) (op : Opcode) :
    SafeState (sequencerStep req op s) := by
  obtain ⟨hF, hh⟩ := sequencerStep_busy_frame hb req op
  exact .of_sinceAcceptance (h.timed.busyStep hb req op).1 (h.positionSettled_busyStep hb req op)
    (hh.trans (h.sinceAcceptance_of_busy hb)) (hF ▸ h.busyFrame hb)

theorem SafeState.edgeResult {s : State} (h : SafeState s) : SafeState (edgeResult s) := by
  cases hr : hcwRst s.nextWord with
  | true => exact safeState_edgeResult_of_reset h.legal hr
  | false =>
    by_cases hp : s.phase = phaseIDLE
    · cases hq : hcwReq s.nextWord with
      | true => rw [edgeResult_accept hr hp hq]; exact safeState_accept h.sample.legal h.sample.resetSeen _
      | false => rw [edgeResult_wait hr hp hq]; exact h.sample
    · rw [edgeResult_noReset hr]; exact h.sample.busyStep hp _ _

/-- Settles O29: a reset edge and an acceptance build the invariant anew, and the step of a busy phase keeps it. -/
theorem everyStepKeepsSafety : Obligations.EveryStepKeepsSafety := by
  intro s t h hstep
  obtain ⟨-, rfl⟩ := step_eq_next.mp hstep
  exact h.edgeResult

/-- The state after a reset edge meets the invariant, whatever the state before, and every further edge keeps it. -/
theorem Reachable.safeState {s : State} (h : Reachable s) : SafeState s := by
  induction h with
  | afterReset s t hrst hstep =>
    obtain ⟨hl, rfl⟩ := step_eq_next.mp hstep
    exact safeState_edgeResult_of_reset hl hrst
  | afterStep s t _ hstep ih => exact everyStepKeepsSafety s t ih hstep

/-- Settles O31: the clauses of R41 are part of the inductive invariant. -/
theorem reachableStatesKeepTheInvariants : Obligations.ReachableStatesKeepTheInvariants :=
  fun _ h => h.safeState.inv

/-! ### Runs of a legal machine -/

/-- Whatever every edge keeps, a run of a legal configuration keeps; it answers, in the same configuration. -/
theorem run_keeps {P : State → Prop} (hP : ∀ s, P s → P (edgeResult s)) (k : Nat) {s : State}
    (hl : s.cfg.legal = true) (hs : P s) : ∃ t, run k s = .next t ∧ t.cfg = s.cfg ∧ P t := by
  induction k generalizing s with
  | zero => exact ⟨s, run_zero s, rfl, hs⟩
  | succ k ih =>
    have hcfg := edgeResult_cfg s
    rw [run_succ_of_step (step_of_legal hl), ← hcfg]
    exact ih (hcfg ▸ hl) (hP s hs)

/-- Settles O26: every edge keeps that a reset edge has occurred, and `funcOut`. -/
theorem legalMachineNeverStops : Obligations.LegalMachineNeverStops := by
  intro k s hl hro
  obtain ⟨t, hrun, hcfg, hrot, hf⟩ :=
    run_keeps (P := fun t => resetOccurred t ∧ t.funcOut = s.funcOut)
      (fun u ⟨hrou, hf⟩ => ⟨(edgeResult_resetOccurred u).mpr (.inr hrou), (edgeResult_funcOut u).trans hf⟩) k hl ⟨hro, rfl⟩
  exact ⟨t, hrun, hrot, hcfg, hf⟩

/-! ### The observation before the first reset edge (10_state R40) -/

theorem observe_of_not_resetOccurred {s : State} (h : ¬ resetOccurred s) :
    s.observe = Config.outputsBeforeReset s.edges := by
  rw [State.observe, not_not.mp h]

/-- Settles O33: a reset edge has occurred after an edge exactly when it had before or this edge is one, and that decides
what is observed. -/
theorem observationStartsAtTheFirstResetEdge : Obligations.ObservationStartsAtTheFirstResetEdge := by
  refine ⟨fun c h => h rfl, fun s t hstep => ?_⟩
  obtain ⟨-, rfl⟩ := step_eq_next.mp hstep
  have hiff := edgeResult_resetOccurred s
  refine ⟨fun hr => ?resetEdge, fun hro => ?laterEdge, fun hro hr => ?stillBefore⟩
  case resetEdge => exact ⟨hiff.mpr (.inl hr), observe_of_resetOccurred (hiff.mpr (.inl hr))⟩
  case laterEdge => exact ⟨hiff.mpr (.inr hro), observe_of_resetOccurred (hiff.mpr (.inr hro))⟩
  case stillBefore =>
    have hnot : ¬ resetOccurred (edgeResult s) := by rw [hiff, hr]; simpa using hro
    exact ⟨hnot, observe_of_not_resetOccurred hnot⟩

/-! ### What writes `INV` and `F` -/

/-- Settles O34: the first part is `edgeResult_INV`; the line is the logical level XORed with `INV`. -/
theorem onlyResetWritesThePolarity : Obligations.OnlyResetWritesThePolarity := by
  refine ⟨fun s t hstep => ?written, fun s _ hmark => ?driven⟩
  case written =>
    obtain ⟨-, rfl⟩ := step_eq_next.mp hstep
    rw [edgeResult_INV]
    exact ⟨fun hr => if_pos hr, fun _ hr => if_neg (by simp [hr])⟩
  case driven =>
    constructor <;> intro hinv <;> rw [State.line, hmark, hinv] <;> rfl

/-- Settles O35: the cases are those of an edge: reset, acceptance, waiting in `IDLE`, and a busy phase's step. -/
theorem onlyResetAndAcceptanceWriteTheFrame : Obligations.OnlyResetAndAcceptanceWriteTheFrame := by
  intro s t hstep
  obtain ⟨-, rfl⟩ := step_eq_next.mp hstep
  refine ⟨fun hr => ?reset, fun _ hr => ⟨fun hp hq => ?accept, fun hp hq => ?wait, fun hb => ?busy⟩⟩
  case reset => rw [edgeResult_reset hr]; rfl
  case accept => rw [edgeResult_accept hr hp hq]; rfl
  case wait => rw [edgeResult_wait hr hp hq]; rfl
  case busy => rw [edgeResult_noReset hr]; exact (sequencerStep_busy_frame (s := s.sample) hb _ _).1

/-! ### The cycles to `IDLE` -/

/-- An acceptance puts `IDLE` `B` cycles away (42_line_sequencer R150). -/
theorem cyclesToIdle_accept {s : State} (h : s.cfg.legal = true) (op : Opcode) :
    cyclesToIdle (accept op s) = busyCycles s.cfg := by
  have hPre := (Config.legal_pos h).1
  have hsum : cyclesToIdle (accept op s) = s.cfg.nPre - 1 + 1 + 64 * s.cfg.nHalf + s.cfg.nGap := rfl
  rw [hsum, Nat.sub_add_cancel hPre, busyCycles]

/-- Settles O41: `Timed.busyStep` counts down, and `Timed.idle_iff` says where the count is 0. -/
theorem cyclesToIdleCountDown : Obligations.CyclesToIdleCountDown := by
  intro s t h hr hstep
  obtain ⟨hl, rfl⟩ := step_eq_next.mp hstep
  refine ⟨fun hb => ?busy, fun hp hq => ?accept, h.timed.idle_iff⟩
  case busy => rw [edgeResult_noReset hr]; exact (h.timed.sample.busyStep hb _ _).2
  case accept => rw [edgeResult_accept hr hp hq]; exact cyclesToIdle_accept (s := s.sample) hl _

end Sys2Proof.Machine
end

section
/-! SUPPORT. The proofs about the frame on the line (spec 20_memory R52, R63): a run through a frame, and the level in
each of its cycles. -/

namespace Sys2Proof.Machine

/-! ### A run through a frame in progress -/

/-- `t` is `k` cycles on from `s` in the same frame, or in the first `IDLE` cycle after it. -/
structure LaterInFrame (k : Nat) (s t : State) : Prop where
  timed : Timed t
  cfg : t.cfg = s.cfg
  INV : t.INV = s.INV
  F : t.F = s.F
  cyclesLeft : cyclesToIdle t + k = cyclesToIdle s

theorem LaterInFrame.refl {s : State} (h : Timed s) : LaterInFrame 0 s s :=
  ⟨h, rfl, rfl, rfl, rfl⟩

theorem LaterInFrame.trans {j k : Nat} {s t u : State} (h : LaterInFrame j s t) (h' : LaterInFrame k t u) :
    LaterInFrame (j + k) s u where
  timed := h'.timed
  cfg := h'.cfg.trans h.cfg
  INV := h'.INV.trans h.INV
  F := h'.F.trans h.F
  cyclesLeft := by rw [← h.cyclesLeft, ← h'.cyclesLeft]; omega

/-- An edge without reset is one cycle of the frame in progress. -/
theorem Timed.edgeResult_laterInFrame {s : State} (h : Timed s) (hb : s.phase ≠ phaseIDLE)
    (hr : hcwRst s.nextWord = false) : LaterInFrame 1 s (edgeResult s) := by
  rw [edgeResult_noReset hr]
  obtain ⟨ht, hleft⟩ := h.sample.busyStep hb (hcwReq s.nextWord) (hcwOpcode s.nextWord)
  obtain ⟨hcfg, hinv, -⟩ := sequencerStep_frame (hcwReq s.nextWord) (hcwOpcode s.nextWord) s.sample
  exact ⟨ht, hcfg, hinv, (sequencerStep_busy_frame (s := s.sample) hb _ _).1, hleft⟩

/-- With no reset among the coming edges, there is none among those after the first. -/
theorem noResetFor_edgeResult {k : Nat} {s : State} (h : noResetFor (k + 1) s) : noResetFor k (edgeResult s) := by
  intro j hj
  rw [wordAt_edgeResult]
  exact h (j + 1) (by omega)

/-- Without reset, a run no longer than the rest of the frame stays in it (42_line_sequencer R153). -/
theorem Timed.run_laterInFrame {k : Nat} {s : State} (h : Timed s) (hk : k ≤ cyclesToIdle s) (hr : noResetFor k s) :
    ∃ t, run k s = .next t ∧ LaterInFrame k s t := by
  induction k generalizing s with
  | zero => exact ⟨s, run_zero s, .refl h⟩
  | succ k ih =>
    have hb : s.phase ≠ phaseIDLE := fun p => by rw [h.idle_iff.mp p] at hk; omega
    have hedge := h.edgeResult_laterInFrame hb (hr 0 k.succ_pos)
    have hleft := hedge.cyclesLeft
    obtain ⟨t, hrun, hlater⟩ := ih hedge.timed (by omega) (noResetFor_edgeResult hr)
    exact ⟨t, run_succ_of_step (step_of_legal h.legal) k ▸ hrun, Nat.add_comm 1 k ▸ hedge.trans hlater⟩

/-! ### The closed form of the line's level (30_encoding R77, R78) -/

/-- The half-period that a cycle lies in, from its first and its last cycle. -/
theorem halfPeriodAt_eq {c : Config} {h n : Nat} (hlo : c.nPre + h * c.nHalf < n)
    (hhi : n ≤ c.nPre + (h + 1) * c.nHalf) : halfPeriodAt c n = h :=
  Nat.div_eq_of_lt_le (by omega) (by omega)

theorem frameLevel_syncPulse {c : Config} {n : Nat} (f : FrameWord) (h : n ≤ c.nPre) : frameLevel c f n = MARK :=
  if_pos h

theorem frameLevel_afterPayload {c : Config} {n : Nat} (f : FrameWord) (h : c.nPre + 64 * c.nHalf < n) :
    frameLevel c f n = SPACE := by
  rw [frameLevel, if_neg (by omega), if_neg (by omega)]

/-- In the payload the level is the bit that the half-period belongs to, and in its second half the opposite. -/
theorem frameLevel_payload {c : Config} {h n : Nat} (f : FrameWord) (hh : h < 64) (hlo : c.nPre + h * c.nHalf < n)
    (hhi : n ≤ c.nPre + (h + 1) * c.nHalf) :
    frameLevel c f n = if h % 2 = 0 then f.getLsbD (31 - h / 2) else !f.getLsbD (31 - h / 2) := by
  have hend : (h + 1) * c.nHalf ≤ 64 * c.nHalf := Nat.mul_le_mul_right _ hh
  rw [frameLevel, if_neg (by omega), if_pos (by omega)]
  simp only [halfPeriodAt_eq hlo hhi]

/-- Bit `i` has the half-periods `62 - 2 * i`, where it is sent as it is, and `63 - 2 * i`, where it is sent inverted. -/
theorem frameLevel_firstHalf {c : Config} {i n : Nat} (f : FrameWord) (hi : i < 32)
    (hlo : c.nPre + (62 - 2 * i) * c.nHalf < n) (hhi : n ≤ c.nPre + (63 - 2 * i) * c.nHalf) :
    frameLevel c f n = f.getLsbD i := by
  have hnext : 62 - 2 * i + 1 = 63 - 2 * i := by omega
  rw [frameLevel_payload f (by omega) hlo (hnext ▸ hhi), if_pos (by omega), show 31 - (62 - 2 * i) / 2 = i by omega]

theorem frameLevel_secondHalf {c : Config} {i n : Nat} (f : FrameWord) (hi : i < 32)
    (hlo : c.nPre + (63 - 2 * i) * c.nHalf < n) (hhi : n ≤ c.nPre + (64 - 2 * i) * c.nHalf) :
    frameLevel c f n = !f.getLsbD i := by
  have hnext : 63 - 2 * i + 1 = 64 - 2 * i := by omega
  rw [frameLevel_payload f (by omega) hlo (hnext ▸ hhi), if_neg (by omega), show 31 - (63 - 2 * i) / 2 = i by omega]

/-! ### The level in each phase (42_line_sequencer R147) -/

theorem State.lvl_idle {s : State} (h : s.phase = phaseIDLE) : s.lvl = SPACE := by
  rw [State.lvl, h]; rfl

theorem State.lvl_pre {s : State} (h : s.phase = phasePRE) : s.lvl = MARK :=
  if_pos h

theorem State.lvl_h1 {s : State} (h : s.phase = phaseH1) : s.lvl = s.F.getLsbD s.idx.toNat := by
  rw [State.lvl, h]; rfl

theorem State.lvl_h2 {s : State} (h : s.phase = phaseH2) : s.lvl = !s.F.getLsbD s.idx.toNat := by
  rw [State.lvl, h]; rfl

theorem State.lvl_gap {s : State} (h : s.phase = phaseGAP) : s.lvl = SPACE := by
  rw [State.lvl, h]; rfl

/-! ### The machine's level is the closed form -/

/-- The payload's 64 half-periods split into those to come and those past. -/
theorem halfPeriods_split {a b : Nat} (h : a + b = 64) (nHalf : Nat) : a * nHalf + b * nHalf = 64 * nHalf := by
  rw [← Nat.add_mul, h]

/-- A frame in progress has at most the busy time of a frame to go. -/
theorem Timed.cyclesToIdle_le_busyCycles {s : State} (h : Timed s) : cyclesToIdle s ≤ busyCycles s.cfg := by
  have hi := s.idx.isLt
  rw [busyCycles]
  rcases h.position with ⟨-, hc⟩ | ⟨p, -⟩ | ⟨-, -, hc⟩ | ⟨-, -, hc⟩ | ⟨-, -, hc⟩
  · omega
  · have hcnt := (h.preOk p).2
    have hPre := (Config.legal_pos h.legal).1
    rw [cyclesToIdle, if_pos p]
    omega
  · have := halfPeriods_split (show 2 * s.idx.toNat + 2 + (62 - 2 * s.idx.toNat) = 64 by omega) s.cfg.nHalf
    omega
  · have := halfPeriods_split (show 2 * s.idx.toNat + 1 + (63 - 2 * s.idx.toNat) = 64 by omega) s.cfg.nHalf
    omega
  · omega

/-- The level is the closed form in the cycle of the frame that `cyclesToIdle` counts from its end: cycle `B + 1` is the
first in `IDLE`. -/
theorem Timed.lvl_eq_frameLevel {s : State} {n : Nat} (h : Timed s)
    (hn : cyclesToIdle s + n = busyCycles s.cfg + 1) : s.lvl = frameLevel s.cfg s.F n := by
  have hi := s.idx.isLt
  rw [busyCycles] at hn
  rcases h.position with ⟨p, hc⟩ | ⟨p, hc⟩ | ⟨p, hlo, hhi⟩ | ⟨p, hlo, hhi⟩ | ⟨p, hlo, hhi⟩
  · rw [State.lvl_idle p, frameLevel_afterPayload _ (by omega)]
  · rw [State.lvl_pre p, frameLevel_syncPulse _ (by omega)]
  · have hfirst := halfPeriods_split (show 2 * s.idx.toNat + 2 + (62 - 2 * s.idx.toNat) = 64 by omega) s.cfg.nHalf
    have hlast := halfPeriods_split (show 2 * s.idx.toNat + 1 + (63 - 2 * s.idx.toNat) = 64 by omega) s.cfg.nHalf
    rw [State.lvl_h1 p, frameLevel_firstHalf _ hi (by omega) (by omega)]
  · have hfirst := halfPeriods_split (show 2 * s.idx.toNat + 1 + (63 - 2 * s.idx.toNat) = 64 by omega) s.cfg.nHalf
    have hlast := halfPeriods_split (show 2 * s.idx.toNat + (64 - 2 * s.idx.toNat) = 64 by omega) s.cfg.nHalf
    rw [State.lvl_h2 p, frameLevel_secondHalf _ hi (by omega) (by omega)]
  · rw [State.lvl_gap p, frameLevel_afterPayload _ (by omega)]

/-- Settles O43: cycle 1 is the state after the acceptance, `B` cycles before `IDLE`; a run of `n - 1` edges from there
stays in the frame, whose level is the closed form. -/
theorem acceptedFrameWaveform : Obligations.AcceptedFrameWaveform := by
  intro s n hl _ hp hq hn hnB hr
  obtain ⟨m, rfl⟩ := Nat.exists_eq_add_of_le' hn
  have hedge := edgeResult_accept (hr 0 m.succ_pos) hp hq
  have hB : cyclesToIdle (edgeResult s) = busyCycles s.cfg := hedge ▸ cyclesToIdle_accept (s := s.sample) hl _
  have htimed : Timed (edgeResult s) := hedge ▸ .accept (s := s.sample) hl _
  obtain ⟨t, hrun, ht⟩ := htimed.run_laterInFrame (k := m) (by omega) (noResetFor_edgeResult hr)
  have hcfg : t.cfg = s.cfg := ht.cfg.trans (edgeResult_cfg s)
  have hINV : t.INV = s.INV := by rw [ht.INV, hedge]; rfl
  have hF : t.F = frame (hcwOpcode s.nextWord) := by rw [ht.F, hedge]; rfl
  have hleft : cyclesToIdle t + (m + 1) = busyCycles t.cfg + 1 := by
    rw [← Nat.add_assoc, ht.cyclesLeft, hB, hcfg]
  refine ⟨t, run_succ_of_step (step_of_legal hl) m ▸ hrun, hINV, hF, ?line⟩
  case line => rw [State.line, physicalLevel, ht.timed.lvl_eq_frameLevel hleft, hcfg, hF, hINV]

/-- The frame period at the default parameters (42_line_sequencer R150). -/
theorem framePeriod_default (inv : Bool) : framePeriod (Config.default inv) = 19801 := by
  simp only [framePeriod, busyCycles, Config.default]

/-- Settles O45: `IDLE` is `cyclesToIdle s` edges away, no more than a frame's busy time, and not reached before; the edge
there is an acceptance. -/
theorem heldRequestIsTakenWithinAPeriod : Obligations.HeldRequestIsTakenWithinAPeriod := by
  refine ⟨fun s h hr hq => ?taken, fun inv => ?defaults⟩
  case defaults => exact ⟨framePeriod_default inv, by rw [cyclesTime, framePeriod_default]⟩
  have hk : cyclesToIdle s ≤ framePeriod s.cfg := h.timed.cyclesToIdle_le_busyCycles.trans (Nat.le_succ _)
  have hreach : ∀ i ≤ cyclesToIdle s, ∃ v, run i s = .next v ∧ LaterInFrame i s v := fun i hi =>
    h.timed.run_laterInFrame hi fun j hj => hr j (by omega)
  obtain ⟨t, hrun, ht⟩ := hreach _ le_rfl
  have hidle : t.phase = phaseIDLE := ht.timed.idle_iff.mpr (by have := ht.cyclesLeft; omega)
  have hword : t.nextWord = s.wordAt (cyclesToIdle s) := nextWord_run hrun
  have hedge := edgeResult_accept (s := t) (hword ▸ hr _ (Nat.lt_succ_of_le hk)) hidle (hword ▸ hq _ hk)
  refine ⟨cyclesToIdle s, t, edgeResult t, hk, fun i hi => ?busyBefore, hrun, hidle, step_of_legal ht.timed.legal, ?_⟩
  case busyBefore =>
    obtain ⟨v, hrunv, hv⟩ := hreach i hi.le
    have hleft := hv.cyclesLeft
    exact ⟨v, hrunv, fun p => by rw [hv.timed.idle_iff.mp p] at hleft; omega⟩
  rw [hedge, ← hword]
  exact ⟨rfl, rfl, rfl⟩

end Sys2Proof.Machine
end

section
/-! SUPPORT. The proofs about the encoding (spec 30_encoding R70, R71, R80, R84): each row's test and operation in terms of
the fields of a word, and that decoding and encoding undo each other. -/

namespace Sys2Proof

/-! ### What each row of 30_encoding R71 tests -/

theorem resetRow_iff {w : HostWord} : w &&& 0x2000000#27 = 0x2000000#27 ↔ hcwRst w = true := by
  rw [← rowMatches_reset, rowMatches, beq_iff_eq]

theorem sendRow_iff {w : HostWord} :
    w &&& 0x3000000#27 = 0x1000000#27 ↔ hcwRst w = false ∧ hcwReq w = true := by
  rw [← beq_iff_eq, ← rowMatches, rowMatches_send, Bool.and_eq_true, Bool.not_eq_true']

theorem hostWord_and_hostWord (inv rst req inv' rst' req' : Bool) (o o' : Opcode) :
    hostWord inv rst req o &&& hostWord inv' rst' req' o' =
      hostWord (inv && inv') (rst && rst') (req && req') (o &&& o') := by
  apply BitVec.eq_of_getLsbD_eq
  intro k _
  simp only [BitVec.getLsbD_and, hostWord_getLsbD]
  split_ifs <;> rfl

/-- The mask of the `SEND` and `NOP` rows keeps the fields `rst` and `req`. -/
theorem and_selectMask (w : HostWord) : w &&& 0x3000000#27 = hostWord false (hcwRst w) (hcwReq w) 0#24 := by
  have hmask : 0x3000000#27 = hostWord false true true 0#24 := by decide
  calc w &&& 0x3000000#27
      = hostWord (hcwInvert w) (hcwRst w) (hcwReq w) (hcwOpcode w) &&& hostWord false true true 0#24 := by
        rw [hostWord_fields, hmask]
    _ = hostWord false (hcwRst w) (hcwReq w) 0#24 := by
        simp only [hostWord_and_hostWord, Bool.and_false, Bool.and_true, BitVec.and_zero]

theorem nopRow_iff {w : HostWord} :
    w &&& 0x3000000#27 = 0x0000000#27 ↔ hcwRst w = false ∧ hcwReq w = false := by
  rw [and_selectMask]
  generalize hcwRst w = rst, hcwReq w = req
  revert rst req
  decide

/-! ### Which operation a word decodes to -/

theorem decodeHostWord_of_reset {w : HostWord} (hr : hcwRst w = true) :
    decodeHostWord w = .reset (hcwInvert w) (hcwReq w) (hcwOpcode w) := by
  rw [decodeHostWord_eq, if_pos hr]

theorem decodeHostWord_of_send {w : HostWord} (hr : hcwRst w = false) (hq : hcwReq w = true) :
    decodeHostWord w = .send (hcwInvert w) (hcwOpcode w) := by
  rw [decodeHostWord_eq, if_neg (ne_true_of_eq_false hr), if_pos hq]

theorem decodeHostWord_of_nop {w : HostWord} (hr : hcwRst w = false) (hq : hcwReq w = false) :
    decodeHostWord w = .nop (hcwInvert w) (hcwOpcode w) := by
  rw [decodeHostWord_eq, if_neg (ne_true_of_eq_false hr), if_neg (ne_true_of_eq_false hq)]

/-- Settles O1: the rows test `rst` and `req`, whose values leave exactly one row in every case. -/
theorem everyHostWordIsExactlyOneOperation : Obligations.EveryHostWordIsExactlyOneOperation := by
  intro w
  rw [resetRow_iff, sendRow_iff, nopRow_iff]
  refine ⟨?cover, ?resetNotSend, ?resetNotNop, ?sendNotNop, decodeHostWord_of_reset,
    fun ⟨hr, hq⟩ => decodeHostWord_of_send hr hq, fun ⟨hr, hq⟩ => decodeHostWord_of_nop hr hq⟩
  case cover =>
    cases hcwRst w with
    | true => exact .inl rfl
    | false =>
      cases hcwReq w with
      | true => exact .inr (.inl ⟨rfl, rfl⟩)
      | false => exact .inr (.inr ⟨rfl, rfl⟩)
  case resetNotSend | resetNotNop => exact fun ⟨hr, hr', _⟩ => ne_true_of_eq_false hr' hr
  case sendNotNop => exact fun ⟨⟨_, hq⟩, _, hq'⟩ => ne_true_of_eq_false hq' hq

/-! ### Encoding undoes decoding -/

/-- Each row's operation keeps the operand fields, and its word has the row's `rst` and `req`: no bit is lost. -/
theorem encode_decodeHostWord (w : HostWord) : encode (decodeHostWord w) = some (.hostWord w) := by
  have hw := hostWord_fields w
  cases hr : hcwRst w with
  | true =>
    rw [hr] at hw
    rw [decodeHostWord_of_reset hr, encode, hw]
  | false =>
    cases hq : hcwReq w with
    | true =>
      rw [hr, hq] at hw
      rw [decodeHostWord_of_send hr hq, encode, hw]
    | false =>
      rw [hr, hq] at hw
      rw [decodeHostWord_of_nop hr hq, encode, hw]

/-- Each of the eight codes is a row of its own, the reserved ones too (30_encoding R80). -/
theorem encode_decodePhase : ∀ c : PhaseCode, encode (decodePhase c) = some (.phaseCode c) := by decide

theorem encode_decodeEncoded (e : Encoded) : encode (decodeEncoded e) = some e := by
  cases e with
  | hostWord w => exact encode_decodeHostWord w
  | phaseCode c => exact encode_decodePhase c

/-! ### Decoding undoes encoding -/

theorem decodeHostWord_hostWord (inv rst req : Bool) (o : Opcode) :
    decodeHostWord (hostWord inv rst req o) =
      if rst then .reset inv req o else if req then .send inv o else .nop inv o := by
  simp only [decodeHostWord_eq, hcwInvert_hostWord, hcwRst_hostWord, hcwReq_hostWord, hcwOpcode_hostWord]

theorem decodeEncoded_of_encode {i : Instr} {e : Encoded} (h : encode i = some e) : decodeEncoded e = i := by
  cases i with
  | csum | frame => cases h
  | reset inv q o => cases h; exact decodeHostWord_hostWord inv true q o
  | send inv o => cases h; exact decodeHostWord_hostWord inv false true o
  | nop inv o => cases h; exact decodeHostWord_hostWord inv false false o
  | _ => cases h; rfl

/-- An instruction has a word exactly when it is well formed (30_encoding R84). -/
theorem encode_isSome (i : Instr) : (encode i).isSome = i.wellFormed := by
  cases i <;> rfl

/-- Settles O2: a well-formed instruction has a word, from which it decodes; a word's instruction encodes to the word. -/
theorem decodeAndEncodeAgree : Obligations.DecodeAndEncodeAgree := by
  refine ⟨fun i hi => ?decodes, encode_decodeEncoded, fun i hi => ?noWord⟩
  case decodes =>
    obtain ⟨e, he⟩ := Option.isSome_iff_exists.mp ((encode_isSome i).trans hi)
    exact ⟨e, he, decodeEncoded_of_encode he⟩
  case noWord => rwa [← encode_isSome, Option.isSome_eq_false_iff, Option.isNone_iff_eq_none] at hi

end Sys2Proof
end

section
/-! SUPPORT. The proofs about the frame encoder (spec 40_frame_encoder R100 to R104). -/

namespace Sys2Proof.Machine

/-- Equal fields have equal sub-fields. -/
theorem extractLsb'_eq_of_field_eq {v w i j n : Nat} {x : BitVec v} {y : BitVec w}
    (h : x.extractLsb' i n = y.extractLsb' j n) (k len : Nat) (hk : k + len ≤ n) :
    x.extractLsb' (i + k) len = y.extractLsb' (j + k) len := by
  apply BitVec.eq_of_getLsbD_eq
  intro m hm
  have hbit : (x.extractLsb' i n).getLsbD (k + m) = (y.extractLsb' j n).getLsbD (k + m) := by rw [h]
  have hlt : k + m < n := by omega
  simpa only [BitVec.getLsbD_extractLsb', hlt, hm, decide_true, Bool.true_and, Nat.add_assoc] using hbit

/-! ### CSUM (40_frame_encoder R100) -/

theorem window0_toNat_le (op : Opcode) : (window0 op).toNat ≤ 3 := by
  rw [window0, BitVec.zeroExtend, BitVec.toNat_setWidth_of_le (by decide)]
  exact Nat.le_of_lt_succ (op.extractLsb' 0 2).isLt

/-- `W0` stops below the checksum's upper two bits. -/
theorem window0_upperBits (op : Opcode) : (window0 op).extractLsb' 2 2 = 0#2 := by
  apply BitVec.eq_of_toNat_eq
  rw [BitVec.extractLsb'_toNat, Nat.shiftRight_eq_div_pow,
    Nat.div_eq_of_lt (Nat.lt_succ_of_le (window0_toNat_le op))]
  rfl

/-- Opcodes that agree from bit `i` on have the same windows there. -/
theorem windowAt_eq_of_field_eq {i n : Nat} {a b : Opcode} (h : a.extractLsb' i n = b.extractLsb' i n) (k : Nat)
    (hk : k + 4 ≤ n) : windowAt a (i + k) = windowAt b (i + k) :=
  extractLsb'_eq_of_field_eq h k 4 hk

theorem window0_eq_of_field_eq {n : Nat} {a b : Opcode} (h : a.extractLsb' 0 n = b.extractLsb' 0 n) (hn : 2 ≤ n) :
    window0 a = window0 b :=
  congrArg (·.zeroExtend 4) (extractLsb'_eq_of_field_eq h 0 2 hn)

theorem csum_eq_of_field_eq {a b : Opcode} (h : a.extractLsb' 0 22 = b.extractLsb' 0 22) : csum a = csum b := by
  have h0 := window0_eq_of_field_eq h (by decide)
  have hw := windowAt_eq_of_field_eq h
  rw [csum, csum, h0, hw 2 (by decide), hw 6 (by decide), hw 10 (by decide), hw 14 (by decide), hw 18 (by decide)]

theorem csum_upperBits_eq_of_field_eq {a b : Opcode} (h : a.extractLsb' 2 20 = b.extractLsb' 2 20) :
    (csum a).extractLsb' 2 2 = (csum b).extractLsb' 2 2 := by
  have hw := windowAt_eq_of_field_eq h
  simp only [csum, BitVec.extractLsb'_xor, window0_upperBits, hw 0 (by decide), hw 4 (by decide), hw 8 (by decide),
    hw 12 (by decide), hw 16 (by decide)]

/-- Settles O5: `W0` stays below the upper two bits, and opcodes that agree on the windows' bits have the same windows. -/
theorem csumIsTheXorOfSixWindows : Obligations.CsumIsTheXorOfSixWindows :=
  ⟨fun _ => rfl, window0_toNat_le, by decide, fun _ _ => csum_eq_of_field_eq, fun _ _ => csum_upperBits_eq_of_field_eq,
    by decide⟩

/-! ### Linearity (40_frame_encoder R101) -/

theorem csum_xor (a b : Opcode) : csum (a ^^^ b) = csum a ^^^ csum b := by
  simp only [csum, windowAt_xor, window0_xor]
  ac_rfl

theorem csum_bit_lowest : ∀ k ≤ 1, csum (1#24 <<< k) = 1#4 <<< k := by decide

theorem csum_bit_windowed : ∀ k ≤ 21, 2 ≤ k → csum (1#24 <<< k) = 1#4 <<< ((k - 2) % 4) := by decide

theorem csum_bit_ignored : ∀ k ≤ 23, 22 ≤ k → csum (1#24 <<< k) = 0#4 := by decide

/-- Settles O6: by linearity, flipping an opcode bit flips the checksum of that bit alone, and bits `k` and `k + 4` have the
same one. -/
theorem csumIsLinear : Obligations.CsumIsLinear := by
  refine ⟨csum_xor, fun a k hk => ?lowest, fun a k h2 hk => ?windowed, fun a k h22 hk => ?ignored,
    fun a k h2 hk => ?cancel⟩
  case lowest => rw [csum_xor, csum_bit_lowest k hk]
  case windowed => rw [csum_xor, csum_bit_windowed k hk h2]
  case ignored => rw [csum_xor, csum_bit_ignored k hk h22, BitVec.xor_zero]
  case cancel =>
    have hmod : (k + 4 - 2) % 4 = (k - 2) % 4 := by omega
    have hsame : csum (1#24 <<< (k + 4)) = csum (1#24 <<< k) := by
      rw [csum_bit_windowed (k + 4) hk (by omega), csum_bit_windowed k (by omega) h2, hmod]
    rw [csum_xor, csum_xor, hsame, BitVec.xor_assoc, BitVec.xor_self, BitVec.xor_zero]

/-! ### The fields of the frame (40_frame_encoder R103)

`frame_fixedBits` has the two fixed fields. -/

theorem frame_payload (op : Opcode) : (frame op).extractLsb' 6 19 = op.extractLsb' 0 19 := by
  apply BitVec.eq_of_getLsbD_eq
  intro k hk
  have hbit : (frame op).getLsbD (6 + k) = op.getLsbD k := by
    rw [frame_getLsbD op _ (by omega), if_neg (by omega), if_pos (by omega), Nat.add_sub_cancel_left]
  rw [BitVec.getLsbD_extractLsb', BitVec.getLsbD_extractLsb', hbit, Nat.zero_add]

theorem frame_checksum (op : Opcode) : (frame op).extractLsb' 2 4 = csum op := by
  apply BitVec.eq_of_getLsbD_eq
  intro k hk
  have hbit : (frame op).getLsbD (2 + k) = (csum op).getLsbD k := by
    rw [frame_getLsbD op _ (by omega), if_neg (by omega), if_neg (by omega), if_pos (by omega), Nat.add_sub_cancel_left]
  rw [BitVec.getLsbD_extractLsb', hbit, decide_eq_true hk, Bool.true_and]

/-- Above the checksum stand the header and `op[18:0]`, and nothing of the higher opcode bits. -/
theorem frame_aboveChecksum (op : Opcode) : (frame op).extractLsb' 6 26 = 0b1111111#7 ++ op.extractLsb' 0 19 := by
  rw [← (frame_fixedBits op).1, ← frame_payload]
  exact (BitVec.extractLsb'_append_extractLsb'_eq_extractLsb' (len₁ := 19) (len₂ := 7) rfl).symm

/-- A frame is its fields side by side, and each field is known. -/
theorem frame_eq_append (op : Opcode) : frame op = 0b1111111#7 ++ op.extractLsb' 0 19 ++ csum op ++ 0b00#2 := by
  have hlow : (frame op).extractLsb' 2 4 ++ (frame op).extractLsb' 0 2 = (frame op).extractLsb' 0 6 :=
    BitVec.extractLsb'_append_extractLsb'_eq_extractLsb' rfl
  calc frame op
      = (frame op).extractLsb' 6 26 ++ (frame op).extractLsb' 0 6 :=
        (BitVec.extractLsb'_append_extractLsb' (w := 26) (len := 6)).symm
    _ = (frame op).extractLsb' 6 26 ++ ((frame op).extractLsb' 2 4 ++ (frame op).extractLsb' 0 2) := by rw [hlow]
    _ = (0b1111111#7 ++ op.extractLsb' 0 19) ++ (csum op ++ 0b00#2) := by
        rw [frame_aboveChecksum, frame_checksum, (frame_fixedBits op).2]
    _ = 0b1111111#7 ++ op.extractLsb' 0 19 ++ csum op ++ 0b00#2 := BitVec.append_assoc'

/-- Settles O8: `op.extractLsb 18 0` is the 19-bit field at bit 0. -/
theorem frameIsFourFields : Obligations.FrameIsFourFields := frame_eq_append

/-! ### What a frame tells of its opcode (40_frame_encoder R104) -/

theorem frame_topByte (op : Opcode) :
    (frame op).extractLsb' 24 8 = 0b1111111#7 ++ BitVec.ofBool (op.getLsbD 18) := by
  have hbit : (frame op).extractLsb' 24 1 = BitVec.ofBool (op.getLsbD 18) := by
    rw [extractLsb'_eq_of_field_eq (frame_payload op) 18 1 (by decide)]
    apply BitVec.eq_of_getLsbD_eq
    intro k hk
    obtain rfl : k = 0 := by omega
    simp
  rw [← (frame_fixedBits op).1, ← hbit]
  exact (BitVec.extractLsb'_append_extractLsb'_eq_extractLsb' (len₁ := 1) (len₂ := 7) rfl).symm

theorem frame_eq_iff_fields {a b : Opcode} :
    frame a = frame b ↔ a.extractLsb' 0 19 = b.extractLsb' 0 19 ∧ csum a = csum b := by
  constructor
  · intro h
    rw [← frame_payload, ← frame_payload, ← frame_checksum, ← frame_checksum, h]
    exact ⟨rfl, rfl⟩
  · rintro ⟨hop, hcsum⟩
    rw [frame_eq_append, frame_eq_append, hop, hcsum]

/-- Where the lower windows agree, the checksum tells the topmost window. -/
theorem windowAt_eq_of_csum_eq {a b : Opcode} (h : a.extractLsb' 0 18 = b.extractLsb' 0 18) (hc : csum a = csum b) :
    windowAt a 18 = windowAt b 18 := by
  have h0 := window0_eq_of_field_eq h (by decide)
  have hw := windowAt_eq_of_field_eq h
  rw [csum, csum, h0, hw 2 (by decide), hw 6 (by decide), hw 10 (by decide), hw 14 (by decide)] at hc
  exact (BitVec.xor_right_inj _).mp hc

theorem frame_eq_iff {a b : Opcode} : frame a = frame b ↔ a.extractLsb' 0 22 = b.extractLsb' 0 22 := by
  rw [frame_eq_iff_fields]
  constructor
  · rintro ⟨hop, hcsum⟩
    have hlow : a.extractLsb' 0 18 = b.extractLsb' 0 18 := extractLsb'_eq_of_field_eq hop 0 18 (by decide)
    have htop : a.extractLsb' 18 4 = b.extractLsb' 18 4 := windowAt_eq_of_csum_eq hlow hcsum
    have hsplit (op : Opcode) : op.extractLsb' 18 4 ++ op.extractLsb' 0 18 = op.extractLsb' 0 22 :=
      BitVec.extractLsb'_append_extractLsb'_eq_extractLsb' rfl
    rw [← hsplit, ← hsplit, hlow, htop]
  · exact fun h => ⟨extractLsb'_eq_of_field_eq h 0 19 (by decide), csum_eq_of_field_eq h⟩

/-- Settles O9: the fields of the frame tell `op[18:0]` and the checksum, and with them bits 19 to 21. -/
theorem frameBitsAndInjectivity : Obligations.FrameBitsAndInjectivity := by
  refine ⟨frame_fixedBits, fun op => ⟨fun h => ?clear, fun h => ?set⟩, fun _ _ => frame_eq_iff,
    fun _ _ hop hcsum => frame_eq_iff_fields.mpr ⟨hop, hcsum⟩,
    fun op => ⟨frame_checksum op, extractLsb'_eq_of_field_eq (frame_payload op) 0 18 (by decide)⟩⟩
  case clear | set => exact (frame_topByte op).trans (by rw [h]; rfl)

/-! ### The formula (40_frame_encoder R102) -/

theorem opcode_shift_lt (op : Opcode) : op.toNat * 2 ^ 6 < 2 ^ 30 := by
  have := op.isLt
  omega

/-- No opcode bit is shifted out of the 32-bit frame. -/
theorem toNat_opcode_shift (op : Opcode) : (op.setWidth 32 <<< 6 : BitVec 32).toNat = op.toNat * 2 ^ 6 := by
  rw [BitVec.toNat_shiftLeft, BitVec.toNat_setWidth_of_le (by decide), Nat.shiftLeft_eq]
  exact Nat.mod_eq_of_lt ((opcode_shift_lt op).trans (by decide))

theorem frame_aboveChecksum_eq_of_field_eq {a b : Opcode} (h : a.extractLsb' 0 19 = b.extractLsb' 0 19) :
    (frame a).extractLsb' 6 26 = (frame b).extractLsb' 6 26 := by
  rw [frame_aboveChecksum, frame_aboveChecksum, h]

/-- Settles O7: the formula is the model's own, and above the checksum stand only the header and `op[18:0]`. -/
theorem frameFollowsTheFormula : Obligations.FrameFollowsTheFormula :=
  ⟨fun _ => rfl, by decide, fun op => (frame_fixedBits op).2,
    fun op => ⟨toNat_opcode_shift op, opcode_shift_lt op⟩, fun _ _ => frame_aboveChecksum_eq_of_field_eq, by decide⟩

end Sys2Proof.Machine
end

section
/-! SUPPORT. The proofs about the host operations (spec 41_host_operations R120 to R125), which phases an edge leads to
(R121; 42_line_sequencer R141 to R146), and waiting in `IDLE` (70_reset_and_hazards R199). -/

namespace Sys2Proof.Machine

/-! ### Which phases each step leads to (42_line_sequencer R141 to R146) -/

theorem idleStep_phase {s : State} (p : s.phase = phaseIDLE) (req : Bool) (op : Opcode) :
    (idleStep req op s).phase = phaseIDLE ∨ (idleStep req op s).phase = phasePRE := by
  rcases idleStep_cases req op s with ⟨-, e⟩ | ⟨-, e⟩ <;> rw [e]
  · exact .inr rfl
  · exact .inl p

theorem preStep_phase {s : State} (p : s.phase = phasePRE) :
    (preStep s).phase = phasePRE ∨ (preStep s).phase = phaseH1 := by
  rcases preStep_cases s with ⟨-, e⟩ | ⟨-, e⟩ <;> rw [e]
  · exact .inl p
  · exact .inr rfl

theorem h1Step_phase {s : State} (p : s.phase = phaseH1) :
    (h1Step s).phase = phaseH1 ∨ (h1Step s).phase = phaseH2 := by
  rcases h1Step_cases s with ⟨-, e⟩ | ⟨-, e⟩ <;> rw [e]
  · exact .inl p
  · exact .inr rfl

theorem h2Step_phase {s : State} (p : s.phase = phaseH2) :
    (h2Step s).phase = phaseH2 ∨ (h2Step s).phase = phaseH1 ∨ (h2Step s).phase = phaseGAP := by
  rcases h2Step_cases s with ⟨-, e⟩ | ⟨-, -, e⟩ | ⟨-, -, e⟩ <;> rw [e]
  · exact .inl p
  · exact .inr (.inl rfl)
  · exact .inr (.inr rfl)

/-- The gap is left at count 0 only. -/
theorem gapStep_phase {s : State} (p : s.phase = phaseGAP) :
    (gapStep s).phase = phaseGAP ∨ (s.cnt = 0 ∧ (gapStep s).phase = phaseIDLE) := by
  rcases gapStep_cases s with ⟨-, e⟩ | ⟨c, e⟩ <;> rw [e]
  · exact .inl p
  · exact .inr ⟨c, rfl⟩

/-- From every phase code, the reserved ones too, the selected step leads to a legal one. -/
theorem sequencerStep_phase_legal (req : Bool) (op : Opcode) (s : State) :
    (sequencerStep req op s).phase.toNat < 5 := by
  rcases phase_cases s.phase with p | p | p | p | p | p
  · rw [sequencerStep_idle p]; rcases idleStep_phase p req op with h | h <;> rw [h] <;> decide
  · rw [sequencerStep_pre p]; rcases preStep_phase p with h | h <;> rw [h] <;> decide
  · rw [sequencerStep_h1 p]; rcases h1Step_phase p with h | h <;> rw [h] <;> decide
  · rw [sequencerStep_h2 p]; rcases h2Step_phase p with h | h | h <;> rw [h] <;> decide
  · rw [sequencerStep_gap p]; rcases gapStep_phase p with h | ⟨-, h⟩ <;> rw [h] <;> decide
  · rw [sequencerStep_reserved p]; simp [reservedStep_eq]

/-- The only step from a frame to `IDLE` is the one that ends its gap. -/
theorem gap_ends_of_sequencerStep_idle {s : State} {req : Bool} {op : Opcode}
    (hb : s.phase = phasePRE ∨ s.phase = phaseH1 ∨ s.phase = phaseH2 ∨ s.phase = phaseGAP)
    (hidle : (sequencerStep req op s).phase = phaseIDLE) : s.phase = phaseGAP ∧ s.cnt = 0 := by
  rcases hb with p | p | p | p
  · rw [sequencerStep_pre p] at hidle; rcases preStep_phase p with h | h <;> simp [h] at hidle
  · rw [sequencerStep_h1 p] at hidle; rcases h1Step_phase p with h | h <;> simp [h] at hidle
  · rw [sequencerStep_h2 p] at hidle; rcases h2Step_phase p with h | h | h <;> simp [h] at hidle
  · rw [sequencerStep_gap p] at hidle
    rcases gapStep_phase p with h | ⟨c, -⟩
    · simp [h] at hidle
    · exact ⟨p, c⟩

/-- Settles O32: a reset edge leads to `IDLE`, and the step of every phase code to a legal one. -/
theorem noEdgeLeadsToAReservedPhase : Obligations.NoEdgeLeadsToAReservedPhase := by
  intro s t _ hstep
  obtain ⟨-, rfl⟩ := step_eq_next.mp hstep
  cases hr : hcwRst s.nextWord with
  | true => rw [edgeResult_reset hr]; simp [resetTo_eq]
  | false => rw [edgeResult_noReset hr]; exact sequencerStep_phase_legal _ _ _

/-- Settles O37: a reset edge writes the reset values, and no other edge leads from a frame to `IDLE` but the one that ends
the gap. -/
theorem onlyResetEndsAFrameEarly : Obligations.OnlyResetEndsAFrameEarly := by
  intro s t _ hstep hb
  obtain ⟨-, rfl⟩ := step_eq_next.mp hstep
  refine ⟨fun hr => ?aborted, fun hidle => ?ended⟩
  case aborted => rw [edgeResult_reset hr]; exact ⟨rfl, rfl, rfl⟩
  case ended =>
    cases hr : hcwRst s.nextWord with
    | true => exact .inl rfl
    | false =>
      rw [edgeResult_noReset hr] at hidle
      exact .inr (gap_ends_of_sequencerStep_idle (s := s.sample) hb hidle)

/-! ### Waiting in `IDLE` (41_host_operations R124, 70_reset_and_hazards R199) -/

/-- With neither reset nor request each edge only samples the inputs. -/
theorem run_idle_sameRegisters {k : Nat} {s : State} (hl : s.cfg.legal = true) (p : s.phase = phaseIDLE)
    (hr : noResetFor k s) (hq : ∀ j < k, hcwReq (s.wordAt j) = false) :
    ∃ t, run k s = .next t ∧ sameRegisters s t := by
  induction k generalizing s with
  | zero => exact ⟨s, run_zero s, rfl, rfl, rfl, rfl, rfl⟩
  | succ k ih =>
    have hedge : edgeResult s = s.sample := edgeResult_wait (hr 0 k.succ_pos) p (hq 0 k.succ_pos)
    have hqRest : ∀ j < k, hcwReq (s.sample.wordAt j) = false := fun j hj => by
      rw [State.wordAt_sample]; exact hq (j + 1) (Nat.succ_lt_succ hj)
    obtain ⟨t, hrun, hregs⟩ := ih (s := s.sample) hl p (hedge ▸ noResetFor_edgeResult hr) hqRest
    exact ⟨t, by rw [run_succ_of_step (step_of_legal hl), hedge, hrun], hregs⟩

/-- Settles O39: by induction on the run the registers stay, and in `IDLE` the level is SPACE. -/
theorem idleWithoutRequestStaysAtSpace : Obligations.IdleWithoutRequestStaysAtSpace := by
  intro k s hl _ p hr hq
  obtain ⟨t, hrun, hregs⟩ := run_idle_sameRegisters hl p hr hq
  have ⟨hphase, _, _, _, hINV⟩ := hregs
  have hlvl : t.lvl = SPACE := State.lvl_idle (hphase ▸ p)
  exact ⟨t, hrun, hregs, hlvl, by rw [State.line, hlvl, ← hINV, physicalLevel, Bool.false_xor]⟩

/-! ### The meanings of the host operations -/

theorem exec_reset {s : State} (hl : s.cfg.legal = true) (inv q : Bool) (o : Opcode) :
    exec (.reset inv q o) s = .next (resetTo inv s) :=
  clocked_of_legal hl

/-- In every phase `SEND` is the selected step with a request: in `IDLE` that step is the acceptance. -/
theorem exec_send (inv : Bool) (o : Opcode) (s : State) :
    exec (.send inv o) s = clocked s (sequencerStep true o s) := by
  rw [exec, execSend]
  by_cases p : s.phase = phaseIDLE
  · rw [if_pos p, sequencerStep_idle p]; rfl
  · rw [if_neg p]

theorem exec_nop (inv : Bool) (o : Opcode) (s : State) :
    exec (.nop inv o) s = clocked s (sequencerStep false o s) := rfl

/-- Outside `IDLE` the step of the phase is the selected step, whatever inputs that one is given. -/
theorem exec_decodePhase_of_busy {s : State} (hb : s.phase ≠ phaseIDLE) (req : Bool) (op : Opcode) :
    exec (decodePhase s.phase) s = clocked s (sequencerStep req op s) := by
  rw [exec_decodePhase, sequencerStep_busy_inputs hb]

/-- Settles O10: `RESET` writes the reset values, from which the outputs follow. -/
theorem resetGivesTheResetState : Obligations.ResetGivesTheResetState := by
  intro inv q o s hl
  have hro : resetOccurred (resetTo inv s) := by simp [resetTo_eq]
  have houtputs : (resetTo inv s).outputs =
      { line := inv, ready := true, stPhase := phaseIDLE, stIdx := 0#5, stFrame := 0#32 } := by
    rw [State.outputs, State.line, State.lvl_idle rfl, physicalLevel, Bool.false_xor]; rfl
  exact ⟨resetTo inv s, exec_reset hl inv q o, resetTo_eq inv s, houtputs, observe_of_resetOccurred hro, hro⟩

/-- Settles O12: in `IDLE` the selected step is the acceptance, and in any other phase it reads no input. -/
theorem sendIsAcceptedOnlyInIdle : Obligations.SendIsAcceptedOnlyInIdle := by
  intro inv o s hl _
  rw [exec_send]
  refine ⟨fun p => ⟨accept o s, ?accepted, accept_eq o s, rfl, State.lvl_pre rfl⟩,
    fun hb => ⟨(exec_decodePhase_of_busy hb true o).symm, ⟨_, clocked_of_legal hl⟩, fun inv' o' => ?asNop⟩⟩
  case accepted => rw [clocked_of_legal hl, sequencerStep_idle p]; rfl
  case asNop => rw [exec_nop, sequencerStep_busy_inputs hb true false o o']

/-- Settles O13: with `ready` 1 the phase is `IDLE`, so the edge is an acceptance. -/
theorem hostSeesTheAcceptance : Obligations.HostSeesTheAcceptance := by
  intro s hl _ hready hr hq
  have p : s.phase = phaseIDLE := eq_of_beq hready
  refine ⟨edgeResult s, step_of_legal hl, ?_⟩
  rw [edgeResult_accept hr p hq]
  exact ⟨rfl, rfl, rfl⟩

/-- Settles O14: `NOP` is the selected step with no request, and of these only that of `IDLE` reads the request. -/
theorem nopRunsThePhaseStep : Obligations.NopRunsThePhaseStep := by
  intro inv o s hl _
  rw [exec_nop]
  refine ⟨⟨_, clocked_of_legal hl⟩, fun p => ?idle, fun hb => (exec_decodePhase_of_busy hb false o).symm,
    fun h5 => ?reserved⟩
  case idle => rw [clocked_of_legal hl, sequencerStep_idle p]; rfl
  case reserved => rw [clocked_of_legal hl, sequencerStep_reserved h5, reservedStep_eq]

end Sys2Proof.Machine
end

section
/-! SUPPORT. The proofs about the line sequencer (spec 42_line_sequencer R140 to R153; 70_reset_and_hazards R201): the step
of each phase, the outputs, the order of the tests at an edge, and the cycles of an accepted frame. -/

namespace Sys2Proof.Machine

/-! ### The outputs by phase (42_line_sequencer R147, R149) -/

theorem State.ready_iff {s : State} : s.ready = true ↔ s.phase = phaseIDLE := beq_iff_eq

theorem State.busy_iff {s : State} : s.busy = true ↔ s.phase ≠ phaseIDLE := by
  rw [State.busy, Bool.not_eq_true', ← Bool.not_eq_true, State.ready_iff]

theorem State.lvl_reserved {s : State} (h : 5 ≤ s.phase.toNat) : s.lvl = SPACE := by
  have hne : ∀ c : PhaseCode, c.toNat < 5 → s.phase ≠ c := fun c hc e => by rw [e] at h; omega
  rw [State.lvl, if_neg (hne _ (by decide)), if_neg (hne _ (by decide)), if_neg (hne _ (by decide))]

/-- Settles O21: each clause is the output's own rule, and once a reset edge has occurred a run shows the outputs. -/
theorem outputsFollowTheRegisters : Obligations.OutputsFollowTheRegisters := by
  intro s hro
  refine ⟨State.lvl_pre, State.lvl_h1, State.lvl_h2, fun p => ?space, rfl, State.ready_iff, rfl,
    observe_of_resetOccurred hro⟩
  case space =>
    rcases p with p | p | p | p | p
    · exact State.lvl_idle p
    · exact State.lvl_gap p
    all_goals exact State.lvl_reserved (by rw [p]; decide)

/-! ### The step of each phase (42_line_sequencer R141 to R146) -/

/-- Settles O15: `req` decides between the acceptance and no change at all. -/
theorem idleWaitsOrAccepts : Obligations.IdleWaitsOrAccepts := by
  intro s hl _ p
  have hexec : exec .idle s = .next (idleStep s.req s.opcode s) := clocked_of_legal hl
  have hlvl : s.lvl = SPACE := State.lvl_idle p
  refine ⟨fun hq => ?accepts, fun hq => ⟨?waits, State.ready_iff.mpr p⟩, hlvl, ?line⟩
  case accepts => rw [hexec, hq, idleStep, if_pos rfl, accept_eq]
  case waits => rw [hexec, hq, idleStep, if_neg Bool.false_ne_true]
  case line => rw [State.line, hlvl, physicalLevel, Bool.false_xor]

/-- Settles O16: the two cases of the step, neither of which leads to `IDLE`. -/
theorem preCountsThenEntersH1 : Obligations.PreCountsThenEntersH1 := by
  intro s hl _ p
  have hexec : exec .pre s = .next (preStep s) := clocked_of_legal hl
  refine ⟨fun c => ?counts, fun c => ?enters, fun t ht => ?busy⟩
  case counts => rw [hexec, preStep, if_pos c, countDown_eq]
  case enters => rw [hexec, preStep, if_neg (not_not.mpr c), enterPhase_eq]
  case busy =>
    obtain rfl : preStep s = t := by rw [hexec] at ht; injection ht
    rw [← Bool.not_eq_true, State.ready_iff]
    rcases preStep_phase p with h | h <;> rw [h] <;> decide

/-- Settles O17: the two cases of the step, and the level of the phase. -/
theorem h1CountsThenEntersH2 : Obligations.H1CountsThenEntersH2 := by
  intro s hl _ p
  have hexec : exec .h1 s = .next (h1Step s) := clocked_of_legal hl
  refine ⟨fun c => ?counts, fun c => ?enters, State.lvl_h1 p⟩
  case counts => rw [hexec, h1Step, if_pos c, countDown_eq]
  case enters => rw [hexec, h1Step, if_neg (not_not.mpr c), enterPhase_eq]

/-- Settles O18: the three cases of the step, where an index that is not 0 goes down without a wrap. -/
theorem h2CountsThenNextBitOrGap : Obligations.H2CountsThenNextBitOrGap := by
  intro s hl _ p
  have hexec : exec .h2 s = .next (h2Step s) := clocked_of_legal hl
  refine ⟨fun c => ?counts, fun c d => ⟨?nextBit, idx_pred _ d⟩, fun c d => ?gap, State.lvl_h2 p⟩
  case counts => rw [hexec, h2Step, if_pos c, countDown_eq]
  case nextBit => rw [hexec, h2Step, if_neg (not_not.mpr c), if_pos d, enterPhase_eq]; rfl
  case gap => rw [hexec, h2Step, if_neg (not_not.mpr c), if_neg (not_not.mpr d), enterPhase_eq]

theorem edgeResult_reserved {s : State} (hr : hcwRst s.nextWord = false) (h : 5 ≤ s.phase.toNat) :
    edgeResult s = reservedStep s.sample := by
  rw [edgeResult_noReset hr, sequencerStep_reserved (s := s.sample) h]

/-- Settles O20: the three codes share one step; the invariant of the reachable states allows legal codes only. -/
theorem reservedPhasesReturnToIdle : Obligations.ReservedPhasesReturnToIdle := by
  refine ⟨fun s h => ?unreachable, fun s hl => ⟨fun p => ?rsvd101, fun p => ?rsvd110, fun p => ?rsvd111,
    fun h5 hr => ?edge⟩⟩
  case unreachable => rcases h.safeState.inv.phaseLegal with p | p | p | p | p <;> rw [p] <;> decide
  case rsvd101 | rsvd110 | rsvd111 => exact ⟨clocked_of_legal hl, State.lvl_reserved (by rw [p]; decide)⟩
  case edge =>
    refine ⟨edgeResult s, step_of_legal hl, ?_⟩
    rw [edgeResult_reserved hr h5]
    exact ⟨rfl, rfl, rfl, rfl, rfl, rfl⟩

/-! ### The order of the tests at an edge (42_line_sequencer R140) -/

/-- Without reset, the edge runs the step that the phase code selects, on the sampled inputs. -/
theorem step_of_noReset {s : State} (hr : hcwRst s.nextWord = false) :
    step s = exec (decodePhase s.phase) s.sample := by
  have hphase := exec_decodePhase s.sample
  rw [State.sample_phase, State.req_sample, State.opcode_sample] at hphase
  rw [step, exec_decodeHostWord, hr, hphase, if_neg Bool.false_ne_true]

/-- Settles O24: the word decodes by `rst` first and `req` next, and without reset the phase's step reads the same inputs. -/
theorem edgePriorityResetThenAcceptThenPhase : Obligations.EdgePriorityResetThenAcceptThenPhase := by
  refine fun s hl => ⟨fun hr => ?reset, fun _ hr hq _ => ?accept, fun _ hr => step_of_noReset hr,
    fun _ => ⟨_, step_of_legal hl⟩⟩
  case reset => rw [step, decodeHostWord_of_reset hr]
  case accept => rw [step, decodeHostWord_of_send hr hq]

/-! ### A frame in progress reads no input but `rst` (42_line_sequencer R153) -/

/-- The next registers depend on the registers, the parameters and the inputs alone: the tests of the selected step come out
the same, and each branch writes what it reads there. -/
theorem sequencerStep_sameRegisters {s s' : State} (hcfg : s.cfg = s'.cfg) (h : sameRegisters s s') (req : Bool)
    (op : Opcode) : sameRegisters (sequencerStep req op s) (sequencerStep req op s') := by
  obtain ⟨hphase, hcnt, hidx, hF, hINV⟩ := h
  unfold sequencerStep idleStep preStep h1Step h2Step gapStep
  rw [← hphase, ← hcnt, ← hidx, ← hcfg]
  split_ifs <;>
    simp [sameRegisters, accept_eq, countDown_eq, enterPhase_eq, reservedStep_eq, hcfg, hphase, hcnt, hidx, hF, hINV]

/-- The same registers after an edge of a frame in progress, whatever the inputs without reset. -/
theorem edgeResult_sameRegisters_of_busy {s s' : State} (hcfg : s.cfg = s'.cfg) (h : sameRegisters s s')
    (hb : s.phase ≠ phaseIDLE) (hr : hcwRst s.nextWord = false) (hr' : hcwRst s'.nextWord = false) :
    sameRegisters (edgeResult s) (edgeResult s') := by
  rw [edgeResult_noReset hr, edgeResult_noReset hr',
    sequencerStep_busy_inputs (s := s.sample) hb _ (hcwReq s'.nextWord) _ (hcwOpcode s'.nextWord)]
  exact sequencerStep_sameRegisters (s := s.sample) (s' := s'.sample) hcfg h _ _

/-- The same registers after any run that stays in the frame. -/
theorem Timed.run_sameRegisters {k : Nat} {s s' t t' : State} (ht : Timed s) (hcfg : s.cfg = s'.cfg)
    (h : sameRegisters s s') (hk : k ≤ cyclesToIdle s) (hr : noResetFor k s) (hr' : noResetFor k s')
    (hrun : run k s = .next t) (hrun' : run k s' = .next t') : sameRegisters t t' := by
  induction k generalizing s s' with
  | zero =>
    rw [run_zero] at hrun hrun'
    injection hrun with hrun; injection hrun' with hrun'
    exact hrun ▸ hrun' ▸ h
  | succ k ih =>
    have hb : s.phase ≠ phaseIDLE := fun p => by rw [ht.idle_iff.mp p] at hk; omega
    have hr0 := hr 0 k.succ_pos
    have hedge := ht.edgeResult_laterInFrame hb hr0
    have hleft := hedge.cyclesLeft
    rw [run_succ_of_step (step_of_legal ht.legal)] at hrun
    rw [run_succ_of_step (step_of_legal (hcfg ▸ ht.legal))] at hrun'
    exact ih hedge.timed (by rw [edgeResult_cfg, edgeResult_cfg, hcfg])
      (edgeResult_sameRegisters_of_busy hcfg h hb hr0 (hr' 0 k.succ_pos)) (by omega)
      (noResetFor_edgeResult hr) (noResetFor_edgeResult hr') hrun hrun'

/-- With the same registers, `IDLE` is as far away. -/
theorem cyclesToIdle_of_sameRegisters {s s' : State} (hcfg : s.cfg = s'.cfg) (h : sameRegisters s s') :
    cyclesToIdle s = cyclesToIdle s' := by
  obtain ⟨hphase, hcnt, hidx, -⟩ := h
  rw [cyclesToIdle, cyclesToIdle, hphase, hcnt, hidx, hcfg]

/-- Settles O38: both runs stay in the frame, by induction with the same registers, and the frame's cycles say when `IDLE`
comes. -/
theorem frameInProgressIgnoresTheInputs : Obligations.FrameInProgressIgnoresTheInputs := by
  intro s s' k hs hs' hcfg h hk hr hr'
  obtain ⟨t, hrun, ht⟩ := hs.timed.run_laterInFrame hk hr
  obtain ⟨t', hrun', -⟩ := hs'.timed.run_laterInFrame (cyclesToIdle_of_sameRegisters hcfg h ▸ hk) hr'
  have hleft := ht.cyclesLeft
  refine ⟨t, t', hrun, hrun', hs.timed.run_sameRegisters hcfg h hk hr hr' hrun hrun', ht.INV, ht.F, ?ends⟩
  case ends => rw [ht.timed.idle_iff]; omega

/-! ### The cycles of an accepted frame (42_line_sequencer R150) -/

/-- At the edge after a run, a request in `IDLE` is accepted. -/
theorem step_accepts_after_run {k : Nat} {s t : State} (hrun : run k s = .next t) (hl : t.cfg.legal = true)
    (p : t.phase = phaseIDLE) (hr : hcwRst (s.wordAt k) = false) (hq : hcwReq (s.wordAt k) = true) :
    step t = .next (accept (hcwOpcode (s.wordAt k)) t.sample) := by
  rw [← nextWord_run hrun] at hr hq ⊢
  rw [step_of_legal hl, edgeResult_accept hr p hq]

/-- Cycle `n` after an acceptance: the run is in the frame, or in the first `IDLE` cycle after it, which is `B + 1`. -/
theorem run_after_acceptance {n : Nat} {s : State} (hl : s.cfg.legal = true) (p : s.phase = phaseIDLE)
    (hq : hcwReq s.nextWord = true) (hn : 1 ≤ n) (hnB : n ≤ busyCycles s.cfg + 1) (hr : noResetFor n s) :
    ∃ t, run n s = .next t ∧ Timed t ∧ t.cfg = s.cfg ∧ cyclesToIdle t + n = busyCycles s.cfg + 1 := by
  obtain ⟨m, rfl⟩ := Nat.exists_eq_add_of_le' hn
  have hedge := edgeResult_accept (hr 0 m.succ_pos) p hq
  have hB : cyclesToIdle (edgeResult s) = busyCycles s.cfg := hedge ▸ cyclesToIdle_accept (s := s.sample) hl _
  have htimed : Timed (edgeResult s) := hedge ▸ .accept (s := s.sample) hl _
  obtain ⟨t, hrun, ht⟩ := htimed.run_laterInFrame (k := m) (by omega) (noResetFor_edgeResult hr)
  have hleft := ht.cyclesLeft
  exact ⟨t, run_succ_of_step (step_of_legal hl) m ▸ hrun, ht.timed, ht.cfg.trans (edgeResult_cfg s), by omega⟩

/-- Cycle `n` of a frame lies in half-period `h` of the payload. -/
def inHalfPeriod (c : Config) (h n : Nat) : Prop :=
  c.nPre + h * c.nHalf < n ∧ n ≤ c.nPre + (h + 1) * c.nHalf

theorem inHalfPeriod.inPayload {c : Config} {h n : Nat} (hn : inHalfPeriod c h n) (hh : h < 64) :
    c.nPre < n ∧ n ≤ c.nPre + 64 * c.nHalf := by
  obtain ⟨hlo, hhi⟩ := hn
  have hend : (h + 1) * c.nHalf ≤ 64 * c.nHalf := Nat.mul_le_mul_right _ hh
  omega

theorem inHalfPeriod.unique {c : Config} {h h' n : Nat} (hn : inHalfPeriod c h n) (hn' : inHalfPeriod c h' n) : h = h' :=
  (halfPeriodAt_eq hn.1 hn.2).symm.trans (halfPeriodAt_eq hn'.1 hn'.2)

/-- What the sequencer is at in half-period `h`: bit `31 - h / 2`, in `H1` for its first half and in `H2` for its second. -/
def sendsHalfPeriod (h : Nat) (s : State) : Prop :=
  s.phase = (if h % 2 = 0 then phaseH1 else phaseH2) ∧ s.idx = BitVec.ofNat 5 (31 - h / 2)

theorem sendsHalfPeriod_of_h1 {s : State} (p : s.phase = phaseH1) : sendsHalfPeriod (62 - 2 * s.idx.toNat) s := by
  have hi := s.idx.isLt
  refine ⟨by rw [p, if_pos (by omega)], ?_⟩
  rw [show 31 - (62 - 2 * s.idx.toNat) / 2 = s.idx.toNat by omega, BitVec.ofNat_toNat, BitVec.setWidth_eq]

theorem sendsHalfPeriod_of_h2 {s : State} (p : s.phase = phaseH2) : sendsHalfPeriod (63 - 2 * s.idx.toNat) s := by
  have hi := s.idx.isLt
  refine ⟨by rw [p, if_neg (by omega)], ?_⟩
  rw [show 31 - (63 - 2 * s.idx.toNat) / 2 = s.idx.toNat by omega, BitVec.ofNat_toNat, BitVec.setWidth_eq]

theorem sendsHalfPeriod_even {j : Nat} {s : State} :
    sendsHalfPeriod (2 * j) s ↔ s.phase = phaseH1 ∧ s.idx = BitVec.ofNat 5 (31 - j) := by
  rw [sendsHalfPeriod, if_pos (by omega), show 2 * j / 2 = j by omega]

theorem sendsHalfPeriod_odd {j : Nat} {s : State} :
    sendsHalfPeriod (2 * j + 1) s ↔ s.phase = phaseH2 ∧ s.idx = BitVec.ofNat 5 (31 - j) := by
  rw [sendsHalfPeriod, if_neg (by omega), show (2 * j + 1) / 2 = j by omega]

/-- Where the frame is in its cycle `n`, which `cyclesToIdle` counts from its end. -/
theorem Timed.cycle_position {n : Nat} {s : State} (ht : Timed s) (hn : cyclesToIdle s + n = busyCycles s.cfg + 1) :
    (s.phase = phasePRE ∧ n ≤ s.cfg.nPre) ∨
    (∃ h < 64, inHalfPeriod s.cfg h n ∧ sendsHalfPeriod h s) ∨
    (s.phase = phaseGAP ∧ s.cfg.nPre + 64 * s.cfg.nHalf < n ∧ n ≤ busyCycles s.cfg) ∨
    (s.phase = phaseIDLE ∧ n = busyCycles s.cfg + 1) := by
  have hi := s.idx.isLt
  have hB : busyCycles s.cfg = s.cfg.nPre + 64 * s.cfg.nHalf + s.cfg.nGap := rfl
  rcases ht.position with ⟨p, hc⟩ | ⟨p, hc⟩ | ⟨p, hlo, hhi⟩ | ⟨p, hlo, hhi⟩ | ⟨p, hlo, hhi⟩
  · exact .inr (.inr (.inr ⟨p, by omega⟩))
  · exact .inl ⟨p, by omega⟩
  · have hfirst := halfPeriods_split (show 2 * s.idx.toNat + 2 + (62 - 2 * s.idx.toNat) = 64 by omega) s.cfg.nHalf
    have hlast := halfPeriods_split (show 2 * s.idx.toNat + 1 + (62 - 2 * s.idx.toNat + 1) = 64 by omega) s.cfg.nHalf
    exact .inr (.inl ⟨_, by omega, ⟨by omega, by omega⟩, sendsHalfPeriod_of_h1 p⟩)
  · have hfirst := halfPeriods_split (show 2 * s.idx.toNat + 1 + (63 - 2 * s.idx.toNat) = 64 by omega) s.cfg.nHalf
    have hlast := halfPeriods_split (show 2 * s.idx.toNat + (63 - 2 * s.idx.toNat + 1) = 64 by omega) s.cfg.nHalf
    exact .inr (.inl ⟨_, by omega, ⟨by omega, by omega⟩, sendsHalfPeriod_of_h2 p⟩)
  · exact .inr (.inr (.inl ⟨p, by omega, by omega⟩))

section CyclesOfAFrame

variable {n : Nat} {s : State} (ht : Timed s) (hn : cyclesToIdle s + n = busyCycles s.cfg + 1)
include ht hn

theorem Timed.pre_of_cycle (hPre : n ≤ s.cfg.nPre) : s.phase = phasePRE := by
  rcases ht.cycle_position hn with ⟨p, -⟩ | ⟨h, hh, hin, -⟩ | ⟨-, hlo, -⟩ | ⟨-, hend⟩
  · exact p
  · have := hin.inPayload hh; omega
  · omega
  · rw [busyCycles] at hend; omega

theorem Timed.sendsHalfPeriod_of_cycle {h : Nat} (hh : h < 64) (hin : inHalfPeriod s.cfg h n) :
    sendsHalfPeriod h s := by
  have hpay := hin.inPayload hh
  rcases ht.cycle_position hn with ⟨-, hhi⟩ | ⟨h', -, hin', hs⟩ | ⟨-, hlo, -⟩ | ⟨-, hend⟩
  · omega
  · exact hin.unique hin' ▸ hs
  · omega
  · rw [busyCycles] at hend; omega

theorem Timed.gap_of_cycle (hlo : s.cfg.nPre + 64 * s.cfg.nHalf < n) (hhi : n ≤ busyCycles s.cfg) :
    s.phase = phaseGAP := by
  rcases ht.cycle_position hn with ⟨-, hPre⟩ | ⟨h, hh, hin, -⟩ | ⟨p, -⟩ | ⟨-, hend⟩
  · omega
  · have := hin.inPayload hh; omega
  · exact p
  · omega

theorem Timed.idle_iff_cycle : s.phase = phaseIDLE ↔ n = busyCycles s.cfg + 1 := by
  rw [ht.idle_iff]; omega

theorem Timed.busy_iff_cycle : s.busy = true ↔ n ≤ busyCycles s.cfg := by
  rw [State.busy_iff, ne_eq, ht.idle_iff]; omega

end CyclesOfAFrame

/-- Settles O42: cycle `n` has `B + 1 - n` cycles to `IDLE`, which fixes the phase and the index; a request at edge `B + 1`
finds `IDLE`. -/
theorem acceptedFrameTiming : Obligations.AcceptedFrameTiming := by
  refine ⟨fun s hl _ p hq => ⟨fun n hn hnB hr => ?phases, fun hr hq' => ?held⟩, fun _ => ⟨rfl, rfl⟩,
    fun inv => ?defaults⟩
  case phases =>
    obtain ⟨t, hrun, ht, hcfg, hleft⟩ := run_after_acceptance hl p hq hn hnB hr
    rw [← hcfg] at hleft ⊢
    refine ⟨t, hrun, ht.pre_of_cycle hleft, fun j hj hlo hhi => ?h1, fun j hj hlo hhi => ?h2,
      fun hlo hhi => ht.gap_of_cycle hleft hlo ?gap, (ht.idle_iff_cycle hleft).mpr, ht.busy_iff_cycle hleft⟩
    case h1 =>
      have hend : (2 * j + 1) * t.cfg.nHalf = 2 * j * t.cfg.nHalf + t.cfg.nHalf := Nat.succ_mul _ _
      exact sendsHalfPeriod_even.mp (ht.sendsHalfPeriod_of_cycle hleft (by omega) ⟨by omega, by omega⟩)
    case h2 =>
      have hstart : (2 * j + 1) * t.cfg.nHalf = 2 * j * t.cfg.nHalf + t.cfg.nHalf := Nat.succ_mul _ _
      have hend : (2 * j + 1 + 1) * t.cfg.nHalf = (2 * j + 1) * t.cfg.nHalf + t.cfg.nHalf := Nat.succ_mul _ _
      exact sendsHalfPeriod_odd.mp (ht.sendsHalfPeriod_of_cycle hleft (by omega) ⟨by omega, by omega⟩)
    case gap => rw [busyCycles]; omega
  case held =>
    obtain ⟨t, hrun, ht, hcfg, hleft⟩ :=
      run_after_acceptance hl p hq (Nat.le_add_left 1 _) le_rfl fun j hj => hr j (by omega)
    have hidle : t.phase = phaseIDLE := ht.idle_iff.mpr (by omega)
    exact ⟨t, _, hrun, hidle, step_accepts_after_run hrun ht.legal hidle (hr _ (by omega)) hq', rfl, rfl⟩
  case defaults =>
    have hP := framePeriod_default inv
    exact ⟨Nat.succ.inj hP, hP⟩

/-! ### The SPACE between two frames (42_line_sequencer R145, 70_reset_and_hazards R201) -/

theorem gapStep_at_zero {s : State} (c : s.cnt = 0) : gapStep s = s.setPhase phaseIDLE := if_neg (not_not.mpr c)

/-- The edge that ends the gap leaves the request to the next edge. -/
theorem edgeResult_gapEnd {s : State} (hr : hcwRst s.nextWord = false) (p : s.phase = phaseGAP) (c : s.cnt = 0) :
    edgeResult s = s.sample.setPhase phaseIDLE := by
  rw [edgeResult_noReset hr, sequencerStep_gap (s := s.sample) p, gapStep_at_zero (s := s.sample) c]

/-- A frame ends in a 0 bit (40_frame_encoder R104), so in a MARK half-period. -/
theorem frame_lastBit (op : Opcode) : (frame op).getLsbD 0 = false := by
  rw [frame_getLsbD op 0 (by decide)]; rfl

theorem SafeState.lvl_lastHalf {s : State} (h : SafeState s) (p : s.phase = phaseH2) (hidx : s.idx = 0#5) :
    s.lvl = MARK := by
  obtain ⟨v, hF⟩ := h.busyFrame (by rw [p]; decide)
  rw [State.lvl_h2 p, hidx, hF, BitVec.toNat_zero, frame_lastBit]; rfl

/-- With no more than the gap to go, the payload is over. -/
theorem Timed.lvl_of_cyclesToIdle_le_gap {s : State} (h : Timed s) (hc : cyclesToIdle s ≤ s.cfg.nGap) :
    s.lvl = SPACE := by
  rcases h.position with ⟨p, -⟩ | ⟨-, hlo⟩ | ⟨-, hlo, -⟩ | ⟨-, hlo, -⟩ | ⟨p, -⟩
  · exact State.lvl_idle p
  · omega
  · omega
  · omega
  · exact State.lvl_gap p

/-- Settles O19: the last half-period has `N_GAP + 1` cycles to `IDLE`; the cycles after it are SPACE, and the edge in
`IDLE` is the first that accepts. -/
theorem gapCountsThenIdlesAndKeepsFramesApart : Obligations.GapCountsThenIdlesAndKeepsFramesApart := by
  refine ⟨fun s hl _ p => ?gap, fun s h p hidx c => ?apart⟩
  case gap =>
    have hexec : exec .gap s = .next (gapStep s) := clocked_of_legal hl
    refine ⟨fun c => ?counts, fun c => ?ends, State.lvl_gap p, fun c hr hq => ?waits⟩
    case counts => rw [hexec, gapStep, if_pos c, countDown_eq]
    case ends => rw [hexec, gapStep_at_zero c]; rfl
    case waits =>
      have hstep : step s = .next (s.sample.setPhase phaseIDLE) :=
        edgeResult_gapEnd (hr 0 (by decide)) p c ▸ step_of_legal hl
      have hrun : run 1 s = .next (s.sample.setPhase phaseIDLE) := run_succ_of_step hstep 0
      exact ⟨_, _, hstep, rfl, rfl, rfl, step_accepts_after_run hrun hl rfl (hr 1 (by decide)) hq, rfl, rfl⟩
  case apart =>
    have hcycles : cyclesToIdle s = s.cfg.nGap + 1 := by
      simp [cyclesToIdle, p, hidx, c, Nat.add_comm]
    have hreach : ∀ n ≤ s.cfg.nGap + 1, noResetFor n s → ∃ t, run n s = .next t ∧ LaterInFrame n s t :=
      fun n hn => h.timed.run_laterInFrame (hcycles ▸ hn)
    refine ⟨h.lvl_lastHalf p hidx, fun n hn hnGap hr => ?space, fun hr hq => ?next⟩
    case space =>
      obtain ⟨t, hrun, ht⟩ := hreach n hnGap hr
      have hleft := ht.cyclesLeft
      exact ⟨t, hrun, ht.timed.lvl_of_cyclesToIdle_le_gap (by rw [ht.cfg]; omega)⟩
    case next =>
      obtain ⟨t, hrun, ht⟩ := hreach _ le_rfl fun j hj => hr j (by omega)
      have hleft := ht.cyclesLeft
      have hidle : t.phase = phaseIDLE := ht.timed.idle_iff.mpr (by omega)
      have hstep := step_accepts_after_run hrun ht.timed.legal hidle (hr _ (by omega)) hq
      exact ⟨_, run_succ_last hrun hstep, rfl, State.lvl_pre rfl⟩

end Sys2Proof.Machine
end

section
/-! SUPPORT. The proofs about the first edge after reset (spec 70_reset_and_hazards R191). -/

namespace Sys2Proof.Machine

theorem edgeResult_phase_of_reset {s : State} (hr : hcwRst s.nextWord = true) : (edgeResult s).phase = phaseIDLE := by
  rw [edgeResult_reset hr]; rfl

theorem nextWord_edgeResult (s : State) : (edgeResult s).nextWord = s.wordAt 1 := wordAt_edgeResult s 0

/-- In `IDLE` an edge without reset is an `IDLE` step on the sampled inputs (42_line_sequencer R140). -/
theorem step_of_idle {s : State} (hr : hcwRst s.nextWord = false) (p : s.phase = phaseIDLE) :
    step s = exec .idle s.sample := by
  rw [step_of_noReset hr, p]; rfl

/-- Settles O40: a reset edge leads to `IDLE`, whose step at the next edge reads that edge's request. -/
theorem firstEdgeAfterResetCanAccept : Obligations.FirstEdgeAfterResetCanAccept := by
  intro s hl hrst hr
  have p : (edgeResult s).phase = phaseIDLE := edgeResult_phase_of_reset hrst
  have hl' : (edgeResult s).cfg.legal = true := (edgeResult_cfg s).symm ▸ hl
  rw [← nextWord_edgeResult] at hr ⊢
  refine ⟨edgeResult s, _, step_of_legal hl, step_of_legal hl', step_of_idle hr p, fun hq => ?accepts⟩
  case accepts => rw [edgeResult_accept hr p hq]; exact ⟨rfl, rfl⟩

end Sys2Proof.Machine
end

section
/-! SUPPORT. The proofs about the step as a whole: which instruction it runs (spec 30_encoding R70, R71, R80), where it
leads (10_state R35, R39), and the pure functions, which run without an edge (40_frame_encoder R100, R102). -/

namespace Sys2Proof.Machine

/-! ### The step runs the instruction that is encoded -/

theorem step_of_encode_hostWord {i : Instr} {s : State} (h : encode i = some (.hostWord s.nextWord)) :
    step s = exec i s.sample := by
  have hdecode : decodeHostWord s.nextWord = i := decodeEncoded_of_encode h
  rw [step, hdecode]

theorem step_of_encode_phaseCode {i : Instr} {s : State} (h : encode i = some (.phaseCode s.phase))
    (hr : hcwRst s.nextWord = false) : step s = exec i s.sample := by
  have hdecode : decodePhase s.phase = i := decodeEncoded_of_encode h
  rw [step_of_noReset hr, hdecode]

/-- Settles O23: decoding undoes encoding, and without reset a step runs the instruction of the phase code too. -/
theorem stepRunsTheEncodedInstruction : Obligations.StepRunsTheEncodedInstruction :=
  fun _ _ _ => ⟨step_of_encode_hostWord, step_of_encode_phaseCode⟩

/-! ### Placing the word of a table row -/

theorem decodeTableWord_hostWord {w : Nat} (h : w < 2 ^ 27) :
    decodeTableWord 32 w = some (decodeHostWord (BitVec.ofNat 27 w)) := by
  have hdecode : decode (formatOfBits 32) w = .ok (decodeHostWord (BitVec.ofNat 27 w)) := if_pos h
  rw [decodeTableWord, hdecode]

theorem decodeTableWord_phaseCode {w : Nat} (h : w < 2 ^ 3) :
    decodeTableWord 8 w = some (decodePhase (BitVec.ofNat 3 w)) := by
  have hdecode : decode (formatOfBits 8) w = .ok (decodePhase (BitVec.ofNat 3 w)) := if_pos h
  rw [decodeTableWord, hdecode]

@[simp] theorem State.nextWord_placeHostWord (s : State) (w : HostWord) : (s.placeHostWord w).nextWord = w := rfl

theorem withFetchWord_hostWord (s : State) (w : Nat) :
    s.withFetchWord 32 w = s.placeHostWord (BitVec.ofNat 27 w) := rfl

theorem withFetchWord_phaseCode (s : State) (w : Nat) :
    s.withFetchWord 8 w = (s.setPhase (BitVec.ofNat 3 w)).placeHostWord asmNOP := rfl

/-- Settles O27: a host-cycle word is placed on the coming edge; a phase code in `phase`, with a `NOP` on that edge, which
does not reset. -/
theorem fetchWordRunsTheTableRow : Obligations.FetchWordRunsTheTableRow := by
  refine fun s w => ⟨fun h => ⟨_, decodeTableWord_hostWord h, fun _ => ?hostWord⟩,
    fun h => ⟨_, decodeTableWord_phaseCode h, fun _ => ?phaseCode⟩⟩
  case hostWord => rw [withFetchWord_hostWord, step, State.nextWord_placeHostWord]
  case phaseCode =>
    rw [withFetchWord_phaseCode]
    exact step_of_noReset (hcwRst_hostWord _ _ _ _)

/-! ### Reset leads every state into the invariant (10_state R39, R40) -/

/-- Settles O30: a step of a legal configuration answers, and the reset values meet the invariant. -/
theorem oneResetEdgeReachesSafety : Obligations.OneResetEdgeReachesSafety :=
  fun s hl hr => ⟨edgeResult s, step_of_legal hl, safeState_edgeResult_of_reset hl hr⟩

/-! ### The position depends on the position and the request (10_state R35) -/

/-- The same position of the sequencer: `phase`, `idx` and `cnt` (10_state R35). -/
def samePosition (s s' : State) : Prop :=
  s.phase = s'.phase ∧ s.idx = s'.idx ∧ s.cnt = s'.cnt

/-- The selected step tests and writes the position by the position, the parameters and `req`: neither `F`, `INV` nor the
opcode takes part. -/
theorem sequencerStep_samePosition {s s' : State} (hcfg : s.cfg = s'.cfg) (h : samePosition s s') (req : Bool)
    (op op' : Opcode) : samePosition (sequencerStep req op s) (sequencerStep req op' s') := by
  obtain ⟨hphase, hidx, hcnt⟩ := h
  unfold sequencerStep idleStep preStep h1Step h2Step gapStep
  rw [← hphase, ← hidx, ← hcnt, ← hcfg]
  split_ifs <;>
    simp [samePosition, accept_eq, countDown_eq, enterPhase_eq, reservedStep_eq, hcfg, hphase, hidx, hcnt]

theorem samePosition_resetTo (inv inv' : Bool) (s s' : State) : samePosition (resetTo inv s) (resetTo inv' s') :=
  ⟨rfl, rfl, rfl⟩

/-- Settles O36: a reset edge writes one position from everywhere, and the selected step is `sequencerStep_samePosition`. -/
theorem positionAndRequestFixTheNextPosition : Obligations.PositionAndRequestFixTheNextPosition := by
  intro s s' t t' _ _ hcfg hphase hidx hcnt hrst hreq hstep hstep'
  obtain ⟨-, rfl⟩ := step_eq_next.mp hstep
  obtain ⟨-, rfl⟩ := step_eq_next.mp hstep'
  cases hr : hcwRst s.nextWord with
  | true =>
    rw [edgeResult_reset hr, edgeResult_reset (hrst ▸ hr)]
    exact samePosition_resetTo _ _ _ _
  | false =>
    rw [edgeResult_noReset hr, edgeResult_noReset (hrst ▸ hr), ← hreq]
    exact sequencerStep_samePosition (s := s.sample) (s' := s'.sample) hcfg ⟨hphase, hidx, hcnt⟩ _ _ _

/-! ### The sampled inputs -/

theorem State.nextWord_of_host {s : State} {w : HostWord} {ws : List HostWord} (h : s.host = w :: ws) :
    s.nextWord = w := by
  rw [State.nextWord, State.wordAt, h]; rfl

/-- Settles O22: the first two parts are `step` and `sample` themselves. -/
theorem stepRunsTheDecodedInstruction : Obligations.StepRunsTheDecodedInstruction :=
  fun _ _ => ⟨rfl, rfl, fun _ _ => State.nextWord_of_host⟩

/-! ### The state after reset (10_state R39) -/

theorem Config.default_legal (inv : Bool) : (Config.default inv).legal = true := by
  obtain ⟨-, -, hdefault⟩ := illegalConfigurationIsRefused
  exact (hdefault inv).1

/-- A reset at the strap's value changes nothing in the state after reset. -/
theorem resetTo_reset : resetTo Config.openInvert State.reset = State.reset := rfl

/-- Settles O28: the state after reset holds the reset values, in a legal configuration. -/
theorem resetStateIsSafe : Obligations.ResetStateIsSafe := by
  rw [Obligations.ResetStateIsSafe, ← resetTo_reset]
  exact safeState_resetTo (s := State.reset) (Config.default_legal _) _

/-- The line is at SPACE in the strapped polarity. -/
theorem reset_observe_line : State.reset.observe.line = State.reset.cfg.invert := by
  rw [observe_line_of_resetOccurred resetStateIsSafe.resetSeen, State.lvl_idle rfl, Bool.false_xor]; rfl

theorem reset_observe_ready : State.reset.observe.ready = true := by
  rw [observe_of_resetOccurred resetStateIsSafe.resetSeen]
  exact State.ready_iff.mpr rfl

/-- Settles O11: the fields are written out in `State.reset`, and the outputs follow from them. -/
theorem resetStateHoldsTheSpecValues : Obligations.ResetStateHoldsTheSpecValues :=
  ⟨rfl, rfl, rfl, rfl, rfl, reset_observe_line, rfl, reset_observe_ready, rfl, rfl, rfl, rfl, rfl, rfl⟩

/-! ### The pure functions on their own (40_frame_encoder R100, R102) -/

theorem sameRegisters_setFuncOut (s : State) (v : FuncOut) : sameRegisters s (s.setFuncOut v) :=
  ⟨rfl, rfl, rfl, rfl, rfl⟩

theorem outputs_setFuncOut (s : State) (v : FuncOut) : (s.setFuncOut v).outputs = s.outputs := rfl

theorem exec_csum (op : Opcode) (s : State) : exec (.csum op) s = .next (s.setFuncOut (.csum (csum op))) := rfl

theorem exec_frame (op : Opcode) (s : State) : exec (.frame op) s = .next (s.setFuncOut (.frame (frame op))) := rfl

/-- Settles O4: both write `funcOut` and nothing else. -/
theorem pureFunctionsAnswerAndWriteNoRegister : Obligations.PureFunctionsAnswerAndWriteNoRegister :=
  fun op s _ =>
    ⟨⟨_, exec_csum op s, rfl, sameRegisters_setFuncOut s _, outputs_setFuncOut s _⟩,
      ⟨_, exec_frame op s, rfl, sameRegisters_setFuncOut s _, outputs_setFuncOut s _⟩⟩

/-! ### Words of the spec (30_encoding R70, R71, R80, R83) -/

/-- Settles O3: the decoder computes each literal word. -/
theorem wordsOfTheSpecDecode : Obligations.WordsOfTheSpecDecode := by
  unfold Obligations.WordsOfTheSpecDecode
  decide

end Sys2Proof.Machine
end

section
/-! SUPPORT. The proofs about the shape of the waveform and its figures (spec 42_line_sequencer R151, 70_reset_and_hazards
R202). -/

namespace Sys2Proof.Machine

/-! ### The level of a half-period (30_encoding R77, R78) -/

/-- The level of half-period `h` of the payload: bit `31 - h / 2`, and in the second half its opposite. -/
def halfPeriodLevel (f : FrameWord) (h : Nat) : Level :=
  if h % 2 = 0 then f.getLsbD (31 - h / 2) else !f.getLsbD (31 - h / 2)

theorem halfPeriodLevel_even (f : FrameWord) (j : Nat) : halfPeriodLevel f (2 * j) = f.getLsbD (31 - j) := by
  rw [halfPeriodLevel, if_pos (by omega), show 2 * j / 2 = j by omega]

theorem halfPeriodLevel_odd (f : FrameWord) (j : Nat) : halfPeriodLevel f (2 * j + 1) = !f.getLsbD (31 - j) := by
  rw [halfPeriodLevel, if_neg (by omega), show (2 * j + 1) / 2 = j by omega]

/-- The closed form is constant in a half-period. -/
theorem frameLevel_of_inHalfPeriod {c : Config} {h n : Nat} (f : FrameWord) (hh : h < 64) (hn : inHalfPeriod c h n) :
    frameLevel c f n = halfPeriodLevel f h :=
  frameLevel_payload f hh hn.1 hn.2

theorem inHalfPeriod_offset {c : Config} {r : Nat} (h : Nat) (hr : r < c.nHalf) :
    inHalfPeriod c h (c.nPre + h * c.nHalf + 1 + r) := by
  have hend : (h + 1) * c.nHalf = h * c.nHalf + c.nHalf := Nat.succ_mul _ _
  exact ⟨by omega, by omega⟩

/-- The first cycle of a half-period. -/
theorem frameLevel_start {c : Config} {h : Nat} (hl : c.legal = true) (f : FrameWord) (hh : h < 64) :
    frameLevel c f (c.nPre + h * c.nHalf + 1) = halfPeriodLevel f h :=
  frameLevel_of_inHalfPeriod f hh (inHalfPeriod_offset (r := 0) h (Config.legal_pos hl).2.1)

/-! ### The frame's fixed bits on the line (40_frame_encoder R104 (a)) -/

theorem frame_headerBit (op : Opcode) {k : Nat} (hlo : 25 ≤ k) (hk : k < 32) : (frame op).getLsbD k = true := by
  rw [frame_getLsbD op k hk, if_pos hlo]

theorem frame_trailerBit (op : Opcode) {k : Nat} (hk : k < 2) : (frame op).getLsbD k = false := by
  rw [frame_getLsbD op k (by omega), if_neg (by omega), if_neg (by omega), if_neg (by omega)]

/-- The seven header bits are 1, so their fourteen half-periods alternate. -/
theorem halfPeriodLevel_header (op : Opcode) {h : Nat} (hh : h < 14) :
    halfPeriodLevel (frame op) h = decide (h % 2 = 0) := by
  rw [halfPeriodLevel, frame_headerBit op (k := 31 - h / 2) (by omega) (by omega)]
  rcases Nat.mod_two_eq_zero_or_one h with heven | hodd
  · simp [heven]
  · simp [hodd]

/-- The two trailer bits are 0, so their four half-periods alternate the other way. -/
theorem halfPeriodLevel_trailer (op : Opcode) {h : Nat} (hlo : 60 ≤ h) (hh : h < 64) :
    halfPeriodLevel (frame op) h = decide (h % 2 = 1) := by
  rw [halfPeriodLevel, frame_trailerBit op (k := 31 - h / 2) (by omega)]
  rcases Nat.mod_two_eq_zero_or_one h with heven | hodd
  · simp [heven]
  · simp [hodd]

/-- The sync pulse runs on into the first half-period, that of bit 31. -/
theorem frameLevel_opening {c : Config} {n : Nat} (op : Opcode) (hn : n ≤ c.nPre + c.nHalf) :
    frameLevel c (frame op) n = MARK := by
  rcases Nat.lt_or_ge c.nPre n with hlo | hhi
  · rw [frameLevel_of_inHalfPeriod (h := 0) _ (by decide) ⟨by omega, by omega⟩, halfPeriodLevel_header op (by decide)]
    rfl
  · exact frameLevel_syncPulse _ hhi

/-- Settles O44: each clause is about the levels of one or two half-periods, and the alternating parts are the header's and
the trailer's fixed bits. -/
theorem frameWaveformShape : Obligations.FrameWaveformShape := by
  intro c op hl
  have hstart : ∀ h < 64, frameLevel c (frame op) (c.nPre + h * c.nHalf + 1) = halfPeriodLevel (frame op) h :=
    fun h hh => frameLevel_start hl _ hh
  have htrailer : ∀ h < 64, 60 ≤ h → frameLevel c (frame op) (c.nPre + h * c.nHalf + 1) = decide (h % 2 = 1) :=
    fun h hh hlo => (hstart h hh).trans (halfPeriodLevel_trailer op hlo hh)
  refine ⟨fun n _ hn => frameLevel_opening op hn, fun h r hh hr => ?constant, fun h hh => ?header, fun j hj => ?middle,
    fun j hj => ?between, htrailer 60 (by decide) (by decide), htrailer 61 (by decide) (by decide),
    htrailer 62 (by decide) (by decide), htrailer 63 (by decide) (by decide),
    fun n hn => frameLevel_afterPayload _ hn⟩
  case constant =>
    rw [hstart h hh, frameLevel_of_inHalfPeriod _ hh (inHalfPeriod_offset h hr)]
  case header =>
    rw [hstart _ (by omega), hstart _ (by omega), halfPeriodLevel_header op (by omega),
      halfPeriodLevel_header op (by omega), ← decide_not, decide_eq_decide]
    omega
  case middle =>
    rw [hstart _ (by omega), hstart _ (by omega), halfPeriodLevel_even, halfPeriodLevel_odd]
  case between =>
    rw [show 2 * j + 2 = 2 * (j + 1) by omega, hstart _ (by omega), hstart _ (by omega), halfPeriodLevel_even,
      halfPeriodLevel_odd, show 31 - (j + 1) = 30 - j by omega, ne_eq, Bool.not_eq_not, eq_comm]

/-! ### The figures at the defaults (70_reset_and_hazards R202) -/

theorem cyclesTime_default (inv : Bool) (n : Nat) : cyclesTime (Config.default inv) n = n * 1000 := rfl

theorem busyCycles_default (inv : Bool) : busyCycles (Config.default inv) = 19800 :=
  Nat.succ.inj (framePeriod_default inv)

/-- Settles O46: the cycle counts at the defaults, each times the period of `clk`. -/
theorem defaultTimingFigures : Obligations.DefaultTimingFigures := by
  intro inv
  simp only [cyclesTime_default, busyCycles_default, framePeriod_default]
  simp only [Config.default, and_self]

end Sys2Proof.Machine
end
